-- ==== Sys2Proof/Word.lean ====
section
/-! DEFINITION. The widths of the values CORE works on (00_scope.md R3, R4, R5; 30_encoding.md R31 to R33, R49). -/

namespace Sys2Proof

/-- A command word, and the data word of a response: 32 bits (00_scope.md R3, `CMD_W`, `RSP_W`). -/
abbrev Word := BitVec 32

/-- A Packet: 13 bits, `{NodeType 3, OctaveSelector 2, Payload 8}` (30_encoding.md R32). -/
abbrev Packet := BitVec 13

/-- A 5-bit glyph field; 0 to 20 are glyph ids, 21 to 31 denote no glyph (30_encoding.md R31). -/
abbrev GlyphId := BitVec 5

/-- A table id, A = 0, B = 1, C = 2, D = 3 (41_glyph_rom.md R60). -/
abbrev TableId := BitVec 2

/-- A `cell_index` that names a cell: 0 to 528 (20_memory.md R20). A 10-bit field that spells 529 to
1023 names nothing (R25) and has no value of this type. -/
abbrev CellIndex := Fin 529

/-- A set of cells of one table: bit `i` stands for cell index `i` (30_encoding.md R36). -/
abbrev CellSet := BitVec 529

/-- A checksum value, 4 bits (00_scope.md R3, `CHK_W`). -/
abbrev Checksum := BitVec 4

/-- The 27-bit triplet word `TRIP27` (30_encoding.md R33). -/
abbrev Triplet := BitVec 27

end Sys2Proof
end

