-- ==== Sys2Proof/Machine/Bits.lean ====
section
/-! DEFINITION. The one bit-field helper: concatenation. Slices `v[hi:lo]` are Lean's `v.extractLsb' lo width`, with
`width = hi - lo + 1` (00_scope.md R4). -/

namespace Sys2Proof.Machine

/-- The number that the concatenation `{a, b, c}` stands for, the first field in the most significant position
(00_scope.md R4). -/
def concatNat (fields : List (Σ n : Nat, BitVec n)) : Nat :=
  fields.foldl (fun acc f => acc * 2 ^ f.1 + f.2.toNat) 0

/-- `zext_w({a, b, c})`: the concatenation of the fields, extended with zeros on the left to `w` bits
(00_scope.md R4, R5). Each field is written `⟨width, value⟩`. -/
def concat (w : Nat) (fields : List (Σ n : Nat, BitVec n)) : BitVec w :=
  BitVec.ofNat w (concatNat fields)

end Sys2Proof.Machine
end

