-- ==== Sys2Proof/Syntax.lean ====
section
/-! DEFINITION. The twelve commands of OCTA13-CMD version 1 (30_encoding.md R46), one constructor per row of
spec/opcode_table.json. Every operand is the field of the command word as it stands, with the field's own width
(R30, R37 to R45), so every term of this type is a command that can be written as a word. -/

namespace Sys2Proof

inductive Instr where
  /-- `PACK nt, oct, pay` (40_bitpacket.md R50; format W). -/
  | pack (nt8 : BitVec 8) (oct8 : BitVec 8) (pay12 : BitVec 12)
  /-- `UNPACK pkt` (40_bitpacket.md R51; format P). -/
  | unpack (pkt : Packet)
  /-- `LOOKUP table, cell` (41_glyph_rom.md R62; format A). -/
  | lookup (table : TableId) (cell : BitVec 10)
  /-- `LOOKUP_RC table, row, col` (41_glyph_rom.md R64; format RC). -/
  | lookupRc (table : TableId) (row : BitVec 5) (col : BitVec 5)
  /-- `RLOOKUP table, glyph` (41_glyph_rom.md R65; format G). -/
  | rlookup (table : TableId) (glyph : GlyphId)
  /-- `TO_ADDR pkt` (42_glyph_mapper.md R71; format P). -/
  | toAddr (pkt : Packet)
  /-- `FROM_ADDR nt, table, cell` (42_glyph_mapper.md R72; format AN). -/
  | fromAddr (nt8 : BitVec 8) (table : TableId) (cell : BitVec 10)
  /-- `CHK_COMPUTE table, cell` (43_checksum.md R82; format A). -/
  | chkCompute (table : TableId) (cell : BitVec 10)
  /-- `CHK_VERIFY chk, table, cell` (43_checksum.md R83; format AC). -/
  | chkVerify (chk : Checksum) (table : TableId) (cell : BitVec 10)
  /-- `ENCODE pkt` (44_encoder_decoder.md R92; format P). -/
  | encode (pkt : Packet)
  /-- `DECODE ntg, table, cell, glyph, chkg` (44_encoder_decoder.md R93; format T). -/
  | decode (ntg : GlyphId) (table : TableId) (cell : BitVec 10) (glyph : GlyphId) (chkg : GlyphId)
  /-- `RESOLVE table, glyph, chkg` (44_encoder_decoder.md R94; format GC). -/
  | resolve (table : TableId) (glyph : GlyphId) (chkg : GlyphId)
  deriving DecidableEq, Repr

end Sys2Proof
end

