-- ==== Sys2Proof/WellFormed.lean ====
section
/-! DEFINITION. Well-formedness. A term of `Instr` is well formed by its type: each operand has the width of its field.
What can be ill formed is a line of the spec's assembler syntax (30_encoding.md R48), whose operands are numbers:
"An operand that does not fit its field cannot be assembled." -/

namespace Sys2Proof

/-- One line of the assembler syntax of 30_encoding.md R48: one input cycle. -/
inductive AsmLine where
  | pack (nt oct pay : Nat)
  | unpack (pkt : Nat)
  | lookup (table cell : Nat)
  | lookupRc (table row col : Nat)
  | rlookup (table glyph : Nat)
  | toAddr (pkt : Nat)
  | fromAddr (nt table cell : Nat)
  | chkCompute (table cell : Nat)
  | chkVerify (chk table cell : Nat)
  | encode (pkt : Nat)
  | decode (ntg table cell glyph chkg : Nat)
  | resolve (table glyph chkg : Nat)
  /-- `.word w`: the raw word, used to write illegal commands. -/
  | word (w : Nat)
  /-- `IDLE`: a cycle with `cmd_valid = 0`. -/
  | idle
  /-- `RESET`: a cycle with `rst = 1`. -/
  | reset
  deriving DecidableEq, Repr

/-- The line can be assembled: every operand fits its field (30_encoding.md R48; the fields' widths R37 to R45). -/
def AsmLine.wellFormed : AsmLine → Bool
  | .pack nt oct pay => decide (nt < 2 ^ 8) && decide (oct < 2 ^ 8) && decide (pay < 2 ^ 12)
  | .unpack pkt => decide (pkt < 2 ^ 13)
  | .lookup table cell => decide (table < 2 ^ 2) && decide (cell < 2 ^ 10)
  | .lookupRc table row col => decide (table < 2 ^ 2) && decide (row < 2 ^ 5) && decide (col < 2 ^ 5)
  | .rlookup table glyph => decide (table < 2 ^ 2) && decide (glyph < 2 ^ 5)
  | .toAddr pkt => decide (pkt < 2 ^ 13)
  | .fromAddr nt table cell => decide (nt < 2 ^ 8) && decide (table < 2 ^ 2) && decide (cell < 2 ^ 10)
  | .chkCompute table cell => decide (table < 2 ^ 2) && decide (cell < 2 ^ 10)
  | .chkVerify chk table cell => decide (chk < 2 ^ 4) && decide (table < 2 ^ 2) && decide (cell < 2 ^ 10)
  | .encode pkt => decide (pkt < 2 ^ 13)
  | .decode ntg table cell glyph chkg =>
    decide (ntg < 2 ^ 5) && decide (table < 2 ^ 2) && decide (cell < 2 ^ 10) && decide (glyph < 2 ^ 5)
      && decide (chkg < 2 ^ 5)
  | .resolve table glyph chkg => decide (table < 2 ^ 2) && decide (glyph < 2 ^ 5) && decide (chkg < 2 ^ 5)
  | .word w => decide (w < 2 ^ 32)
  | .idle => true
  | .reset => true

end Sys2Proof
end

