-- ==== Sys2Proof/Decode.lean ====
section
/-! DEFINITION. The command word: decoder, encoder, and the table of masks (30_encoding.md R30, R34, R37 to R47). -/

namespace Sys2Proof

open Sys2Proof.Machine (concat)

/-- Why a word is no command, in the order the two are tested (30_encoding.md R34 steps 1 and 2). Both end in the
status `ILLEGAL_COMMAND` (R47). -/
inductive DecodeError where
  /-- The opcode is `0x0`, `0xD`, `0xE` or `0xF`. -/
  | unassignedOpcode
  /-- A bit that the command's format marks reserved is 1. -/
  | reservedBitSet
  deriving DecidableEq, Repr

/-- The command, if the bits its format reserves are 0 (30_encoding.md R34 step 2). -/
def ifReservedZero (reservedZero : Bool) (i : Instr) : Except DecodeError Instr :=
  if reservedZero then .ok i else .error .reservedBitSet

/-- The bits `hi..lo` of a word, `len = hi - lo + 1` of them, are all 0. -/
def zeroBits (w : Word) (lo len : Nat) : Bool :=
  w.extractLsb' lo len == 0

/-- The command a word is, or why it is none (30_encoding.md R34 steps 1 and 2; the formats R37 to R45; the opcodes
R46). Total on all 2^32 words. -/
def decodeCmd (w : Word) : Except DecodeError Instr :=
  match w.extractLsb' 28 4 with
  -- format W
  | 0x1#4 => .ok (.pack (w.extractLsb' 20 8) (w.extractLsb' 12 8) (w.extractLsb' 0 12))
  -- format P
  | 0x2#4 => ifReservedZero (zeroBits w 13 15) (.unpack (w.extractLsb' 0 13))
  -- format A
  | 0x3#4 => ifReservedZero (zeroBits w 12 16) (.lookup (w.extractLsb' 10 2) (w.extractLsb' 0 10))
  -- format RC
  | 0x4#4 => ifReservedZero (zeroBits w 12 16) (.lookupRc (w.extractLsb' 10 2) (w.extractLsb' 5 5) (w.extractLsb' 0 5))
  -- format G
  | 0x5#4 => ifReservedZero (zeroBits w 12 16 && zeroBits w 0 5) (.rlookup (w.extractLsb' 10 2) (w.extractLsb' 5 5))
  -- format P
  | 0x6#4 => ifReservedZero (zeroBits w 13 15) (.toAddr (w.extractLsb' 0 13))
  -- format AN
  | 0x7#4 => ifReservedZero (zeroBits w 12 8) (.fromAddr (w.extractLsb' 20 8) (w.extractLsb' 10 2) (w.extractLsb' 0 10))
  -- format A
  | 0x8#4 => ifReservedZero (zeroBits w 12 16) (.chkCompute (w.extractLsb' 10 2) (w.extractLsb' 0 10))
  -- format AC
  | 0x9#4 => ifReservedZero (zeroBits w 16 12) (.chkVerify (w.extractLsb' 12 4) (w.extractLsb' 10 2) (w.extractLsb' 0 10))
  -- format P
  | 0xA#4 => ifReservedZero (zeroBits w 13 15) (.encode (w.extractLsb' 0 13))
  -- format T
  | 0xB#4 => ifReservedZero (zeroBits w 27 1)
      (.decode (w.extractLsb' 22 5) (w.extractLsb' 20 2) (w.extractLsb' 10 10) (w.extractLsb' 5 5) (w.extractLsb' 0 5))
  -- format GC
  | 0xC#4 => ifReservedZero (zeroBits w 12 16) (.resolve (w.extractLsb' 10 2) (w.extractLsb' 5 5) (w.extractLsb' 0 5))
  | _ => .error .unassignedOpcode

/-- The word of a command: opcode, operand fields, reserved bits 0, from bit 31 down (30_encoding.md R37 to R46). -/
def encodeCmd : Instr → Word
  | .pack nt8 oct8 pay12 => concat 32 [⟨4, 0x1⟩, ⟨8, nt8⟩, ⟨8, oct8⟩, ⟨12, pay12⟩]
  | .unpack pkt => concat 32 [⟨4, 0x2⟩, ⟨15, 0⟩, ⟨13, pkt⟩]
  | .lookup table cell => concat 32 [⟨4, 0x3⟩, ⟨16, 0⟩, ⟨2, table⟩, ⟨10, cell⟩]
  | .lookupRc table row col => concat 32 [⟨4, 0x4⟩, ⟨16, 0⟩, ⟨2, table⟩, ⟨5, row⟩, ⟨5, col⟩]
  | .rlookup table glyph => concat 32 [⟨4, 0x5⟩, ⟨16, 0⟩, ⟨2, table⟩, ⟨5, glyph⟩, ⟨5, 0⟩]
  | .toAddr pkt => concat 32 [⟨4, 0x6⟩, ⟨15, 0⟩, ⟨13, pkt⟩]
  | .fromAddr nt8 table cell => concat 32 [⟨4, 0x7⟩, ⟨8, nt8⟩, ⟨8, 0⟩, ⟨2, table⟩, ⟨10, cell⟩]
  | .chkCompute table cell => concat 32 [⟨4, 0x8⟩, ⟨16, 0⟩, ⟨2, table⟩, ⟨10, cell⟩]
  | .chkVerify chk table cell => concat 32 [⟨4, 0x9⟩, ⟨12, 0⟩, ⟨4, chk⟩, ⟨2, table⟩, ⟨10, cell⟩]
  | .encode pkt => concat 32 [⟨4, 0xA⟩, ⟨15, 0⟩, ⟨13, pkt⟩]
  | .decode ntg table cell glyph chkg =>
    concat 32 [⟨4, 0xB⟩, ⟨1, 0⟩, ⟨5, ntg⟩, ⟨2, table⟩, ⟨10, cell⟩, ⟨5, glyph⟩, ⟨5, chkg⟩]
  | .resolve table glyph chkg => concat 32 [⟨4, 0xC⟩, ⟨16, 0⟩, ⟨2, table⟩, ⟨5, glyph⟩, ⟨5, chkg⟩]

/-- One row of the opcode map: a word is this command when `(cmd & mask) = pattern` (30_encoding.md R34, R46; the
spec's column `match` is `pattern` here). -/
structure OpcodeRow where
  mnemonic : String
  pattern : Word
  mask : Word
  deriving DecidableEq, Repr

/-- The opcode map as 30_encoding.md R46 prints it. -/
def opcodeMap : List OpcodeRow :=
  [⟨"PACK", 0x10000000, 0xF0000000⟩,
   ⟨"UNPACK", 0x20000000, 0xFFFFE000⟩,
   ⟨"LOOKUP", 0x30000000, 0xFFFFF000⟩,
   ⟨"LOOKUP_RC", 0x40000000, 0xFFFFF000⟩,
   ⟨"RLOOKUP", 0x50000000, 0xFFFFF01F⟩,
   ⟨"TO_ADDR", 0x60000000, 0xFFFFE000⟩,
   ⟨"FROM_ADDR", 0x70000000, 0xF00FF000⟩,
   ⟨"CHK_COMPUTE", 0x80000000, 0xFFFFF000⟩,
   ⟨"CHK_VERIFY", 0x90000000, 0xFFFF0000⟩,
   ⟨"ENCODE", 0xA0000000, 0xFFFFE000⟩,
   ⟨"DECODE", 0xB0000000, 0xF8000000⟩,
   ⟨"RESOLVE", 0xC0000000, 0xFFFFF000⟩]

/-- A command's mnemonic (30_encoding.md R46). -/
def Instr.mnemonic : Instr → String
  | .pack _ _ _ => "PACK"
  | .unpack _ => "UNPACK"
  | .lookup _ _ => "LOOKUP"
  | .lookupRc _ _ _ => "LOOKUP_RC"
  | .rlookup _ _ => "RLOOKUP"
  | .toAddr _ => "TO_ADDR"
  | .fromAddr _ _ _ => "FROM_ADDR"
  | .chkCompute _ _ => "CHK_COMPUTE"
  | .chkVerify _ _ _ => "CHK_VERIFY"
  | .encode _ => "ENCODE"
  | .decode _ _ _ _ _ => "DECODE"
  | .resolve _ _ _ => "RESOLVE"

/-- The command read from the low `nbits` bits of `w`, the higher bits of the word 0; `none` where the decoder refuses
the word or `nbits` exceeds the one length there is, 32 (30_encoding.md R30). -/
def decodeTableWord (nbits w : Nat) : Option Instr :=
  if nbits ≤ 32 then (decodeCmd (BitVec.ofNat 32 (w % 2 ^ nbits))).toOption else none

end Sys2Proof
end

