-- ==== Sys2Proof/Config.lean ====
section
/-! DEFINITION. What the spec takes as a parameter or leaves without a value. Every free value here is an opaque
constant: it has no body, so nothing can be proved about its value but what its type says. The protocol constants of 00_scope.md R3 that have a value
(widths, 529, 21, STEP) stand where the rules use them. -/

namespace Sys2Proof.Config

/-- Which number stands for which symbol: any permutation of the numbers at all, so that `alphabet` below can be any
choice of 21 distinct symbols and none is ruled out. Log entry 3. -/
opaque symbolNumbering : Equiv.Perm Nat

/-- The parameter `ALPHABET : 0..20 -> Symbol` (00_scope.md R3; 91_not_in_source.md N1), "a list of 21 distinct symbols"
(93_implementation_defined.md V3): an embedding, so no two glyph ids have the same symbol. A symbol is stood for by a
number; no rule of CORE reads it. Log entry 3. -/
def alphabet : Fin 21 ↪ Nat where
  toFun g := symbolNumbering g.val
  inj' := symbolNumbering.injective.comp Fin.val_injective

/-- The parameter `SOLID : 0..5 -> Name` (00_scope.md R3; 91_not_in_source.md N2; 93_implementation_defined.md V4).
No rule of CORE reads it. Log entry 3. -/
opaque solid : Fin 6 → String

/-- `rsp.valid` before the first reset edge: "no defined value" (10_state.md R19; 93_implementation_defined.md U1).
Log entry 2. -/
opaque powerUpValid : Bool

/-- `rsp.status` before the first reset edge (10_state.md R19). Log entry 2. -/
opaque powerUpStatus : BitVec 4

/-- `rsp.data` before the first reset edge (10_state.md R19). Log entry 2. -/
opaque powerUpData : Word

/-- `rsp.set` before the first reset edge (10_state.md R19). Log entry 2. -/
opaque powerUpSet : CellSet

end Sys2Proof.Config
end

