-- ==== Sys2Proof/Machine/State.lean ====
section
/-! DEFINITION. The state of one CORE instance (10_state.md R11, R13, R18, R19) and the reasons a step can stop. -/

namespace Sys2Proof.Machine

/-- The inputs sampled at one rising edge of `clk` (10_state.md R13, R14, R18). -/
structure Input where
  /-- `rst`: synchronous reset, active high. -/
  rst : Bool
  /-- `cmd_valid`: a command is presented at this edge. -/
  cmdValid : Bool
  /-- `cmd`: the command word; ignored when `cmdValid` is false or `rst` is true. -/
  cmd : Word
  deriving DecidableEq, Repr

/-- The four response registers: the whole architectural state of CORE (10_state.md R11). They are also its outputs
(R18). -/
structure Response where
  /-- `rsp.valid`, 1 bit. -/
  valid : Bool
  /-- `rsp.status`, 4 bits: a status code (60_exceptions.md R120). -/
  status : BitVec 4
  /-- `rsp.data`, 32 bits. -/
  data : Word
  /-- `rsp.set`, 529 bits. -/
  set : CellSet
  deriving DecidableEq, Repr

/-- One CORE instance and the inputs it has still to sample. -/
structure State where
  /-- The four response registers (10_state.md R11). -/
  rsp : Response
  /-- DESIGN CHOICE (log entry 1). The MODEL's own field, not a register of CORE: the input triples that the host
  presents at the coming edges, the next one first (10_state.md R13; 70_reset_and_hazards.md R148). -/
  inputs : List Input
  deriving DecidableEq, Repr

/-- Why a step stops. -/
inductive Fault where
  /-- No move: the run gives no input triple for this edge. Raised by `step` alone, when `State.inputs` is empty: the
  run has ended (70_reset_and_hazards.md R148), and "A model has no move for a metastable or undriven input" (R147).
  Safe: the machine stops where hardware would sample whatever its pins show (log entry 1). -/
  | noInput
  deriving DecidableEq, Repr

/-- Why an instruction has no meaning. -/
inductive Refusal where
  /-- An arm of `exec` that has no meaning yet. Raised by no arm of this model; safe. -/
  | notModelled (mnemonic : String)
  deriving DecidableEq, Repr

/-- The response registers after a reset edge and after an idle edge: all zero (10_state.md R14, R19). -/
def Response.zero : Response :=
  { valid := false, status := 0, data := 0, set := 0 }

/-- CORE right after a reset edge (10_state.md R19), with no input presented yet (log entry 1). -/
def State.reset : State :=
  { rsp := Response.zero, inputs := [] }

/-- CORE from power-up until the first reset edge: the four registers "hold no defined value" (10_state.md R19;
93_implementation_defined.md U1), here free values of Config (log entry 2); the host presents `inputs`. -/
def State.powerUp (inputs : List Input) : State :=
  { rsp := { valid := Config.powerUpValid, status := Config.powerUpStatus, data := Config.powerUpData,
             set := Config.powerUpSet },
    inputs := inputs }

/-- The state with the response registers replaced. -/
def State.setRsp (s : State) (r : Response) : State :=
  { s with rsp := r }

/-- The state with the coming inputs replaced. -/
def State.setInputs (s : State) (inps : List Input) : State :=
  { s with inputs := inps }

end Sys2Proof.Machine
end

