-- ==== Sys2Proof/Machine/Flags.lean ====
section
/-! DEFINITION. Status codes. CORE has no flags and no sticky bits (10_state.md R15): `rsp.status` is its only status
information. -/

namespace Sys2Proof.Machine

/-- The eight values of `rsp.status` (60_exceptions.md R120). CORE never writes `truncatedFrame` and `sequenceGap`;
the host's framing software uses them (45_host_framing.md R106). -/
inductive Status where
  | ok
  | fieldOutOfRange
  | indexOutOfRange
  | checksumMismatch
  | truncatedFrame
  | sequenceGap
  | malformedGlyphTriplet
  | illegalCommand
  deriving DecidableEq, Repr

/-- The number of a status (60_exceptions.md R120). -/
def Status.code : Status → BitVec 4
  | .ok => 0
  | .fieldOutOfRange => 1
  | .indexOutOfRange => 2
  | .checksumMismatch => 3
  | .truncatedFrame => 4
  | .sequenceGap => 5
  | .malformedGlyphTriplet => 6
  | .illegalCommand => 7

end Sys2Proof.Machine
end

