-- ==== Sys2Proof/Machine/Ops.lean ====
section
/-! DEFINITION. The named operations: reading the glyph ROM, collecting cells into a set, raising a status, answering
a command. -/

namespace Sys2Proof.Machine

/-- `Rom(t, i)`: the glyph id at table `t`, cell `i` of `glyph_lookup_rom` (41_glyph_rom.md R61). The table is an
argument of the read and does not change the contents (90_conflicts.md C2). The ROM is a constant, not state
(10_state.md R17). -/
def rom (_t : TableId) (i : CellIndex) : GlyphId :=
  BitVec.ofNat 5 (i.val % 21)

/-- `{ i in 0..528 | p i }`, lowest first (the set builder of 41_glyph_rom.md R65 and 44_encoder_decoder.md R94). -/
def cellsWhere (p : CellIndex → Bool) : List CellIndex :=
  (List.finRange 529).filter p

/-- The 529-bit vector with bit `i` = 1 iff `i` is in the list (30_encoding.md R36). -/
def cellSet (cells : List CellIndex) : CellSet :=
  cells.foldr (fun i acc => acc ||| BitVec.twoPow 529 i.val) 0

/-- The result of a command: `(status, data, set)` (00_scope.md R6; 30_encoding.md R34). It is a function of the command
word alone. -/
structure Result where
  status : Status
  data : Word
  set : CellSet
  deriving DecidableEq, Repr

/-- `return (data, set)`: the command ends with status `OK` (00_scope.md R6). -/
def ret (data : Word) (set : CellSet) : Result :=
  { status := .ok, data := data, set := set }

/-- `raise <Status>`: the command ends at once with that status, data 0 and set 0 (60_exceptions.md R122). This is all
that an error does: no trap is entered (R126), so there is nothing to return from (R124). -/
def raise (st : Status) : Result :=
  { status := st, data := 0, set := 0 }

/-- The step's write of the response registers after a command (10_state.md R14): `rsp.valid <- 1` and the command's
status, data and set. Nothing else is state. -/
def answer (r : Result) (s : State) : Host.Outcome State Fault Refusal :=
  .next (s.setRsp { valid := true, status := r.status.code, data := r.data, set := r.set })

/-- The step's write of the response registers on a reset edge and on an idle edge: all zero (10_state.md R14). -/
def clearResponse (s : State) : Host.Outcome State Fault Refusal :=
  .next (s.setRsp Response.zero)

end Sys2Proof.Machine
end

