-- ==== Sys2Proof/Machine/Operands.lean ====
section
/-! DEFINITION. The data words of operands and results: packets, cell addresses, triplets, and the range tests on
operand fields. -/

namespace Sys2Proof.Machine

/-- `p[12:10]`, the NodeType (30_encoding.md R32). -/
def packetNodeType (p : Packet) : BitVec 3 := p.extractLsb' 10 3

/-- `p[9:8]`, the OctaveSelector: the table id of the packet's cell (30_encoding.md R32; 41_glyph_rom.md R60). -/
def packetOctave (p : Packet) : TableId := p.extractLsb' 8 2

/-- `p[7:0]`, the Payload (30_encoding.md R32). -/
def packetPayload (p : Packet) : BitVec 8 := p.extractLsb' 0 8

/-- `{NodeType, OctaveSelector, Payload}` (30_encoding.md R32). -/
def mkPacket (nt : BitVec 3) (oct : TableId) (pay : BitVec 8) : Packet :=
  concat 13 [⟨3, nt⟩, ⟨2, oct⟩, ⟨8, pay⟩]

/-- A packet is valid when its NodeType is at most 5 (30_encoding.md R32). -/
def validPacket (p : Packet) : Bool := decide ((packetNodeType p).toNat ≤ 5)

/-- The cell a 10-bit index names; `none` for 529 to 1023, which name nothing (20_memory.md R25). -/
def cellIndex? (i : BitVec 10) : Option CellIndex :=
  if h : i.toNat ≤ 528 then some ⟨i.toNat, by omega⟩ else none

/-- The cell a row and a column name, `row × 23 + col`; `none` when either is 23 to 31 (20_memory.md R21, R25). -/
def cellAt? (row col : BitVec 5) : Option CellIndex :=
  if h : row.toNat ≤ 22 ∧ col.toNat ≤ 22 then some ⟨row.toNat * 23 + col.toNat, by omega⟩ else none

/-- `i div 23`, the row of a cell (20_memory.md R21). -/
def cellRow (i : CellIndex) : BitVec 5 := BitVec.ofNat 5 (i.val / 23)

/-- `i mod 23`, the column of a cell (20_memory.md R21). -/
def cellCol (i : CellIndex) : BitVec 5 := BitVec.ofNat 5 (i.val % 23)

/-- A cell index as the 10-bit field that spells it. -/
def cellBits (i : CellIndex) : BitVec 10 := BitVec.ofNat 10 i.val

/-- `reduce`: the cell index of a packet is its Payload, unchanged (42_glyph_mapper.md R70). -/
def reduce (pay : BitVec 8) : CellIndex := ⟨pay.toNat, by omega⟩

/-- The index fits the 8-bit Payload, so that a packet can be formed of it (42_glyph_mapper.md R72). -/
def fitsPayload (i : CellIndex) : Bool := decide (i.val ≤ 255)

/-- `i[7:0]`, the Payload of an index that fits it (42_glyph_mapper.md R72). -/
def cellPayload (i : CellIndex) : BitVec 8 := BitVec.ofNat 8 i.val

/-- The word `ADDR12 = {t, i}` (30_encoding.md R49). -/
def mkAddr12 (t : TableId) (i : CellIndex) : BitVec 12 :=
  concat 12 [⟨2, t⟩, ⟨10, cellBits i⟩]

/-- The word `TRIP27 = {ntg, table, cell, glyph, chkg}` (30_encoding.md R33). -/
def mkTriplet (ntg : GlyphId) (t : TableId) (cell : BitVec 10) (g : GlyphId) (cg : GlyphId) : Triplet :=
  concat 27 [⟨5, ntg⟩, ⟨2, t⟩, ⟨10, cell⟩, ⟨5, g⟩, ⟨5, cg⟩]

/-- The value is a glyph id, 0 to 20 (30_encoding.md R31). -/
def isGlyph (g : GlyphId) : Bool := decide (g.toNat ≤ 20)

/-- The value is a NodeType marker, 0 to 5 (44_encoder_decoder.md R90). -/
def isMarker (g : GlyphId) : Bool := decide (g.toNat ≤ 5)

/-- The value is a checksum glyph, 0 to 15 (44_encoder_decoder.md R91). -/
def isChecksumGlyph (g : GlyphId) : Bool := decide (g.toNat ≤ 15)

/-- `zext_5(n)`, the marker of node type `n` (44_encoder_decoder.md R90). -/
def marker (n : BitVec 3) : GlyphId := n.setWidth 5

/-- `zext_5(c)`, the checksum glyph of checksum value `c` (44_encoder_decoder.md R91). -/
def checksumGlyph (c : Checksum) : GlyphId := c.setWidth 5

/-- `cg[3:0]`, the checksum value a checksum glyph stands for (44_encoder_decoder.md R91, R93). -/
def glyphChecksum (cg : GlyphId) : Checksum := cg.extractLsb' 0 4

end Sys2Proof.Machine
end

