-- ==== Sys2Proof/Machine/BitPacket.lean ====
section
/-! DEFINITION. Bit-field packing: PACK, UNPACK (40_bitpacket.md). -/

namespace Sys2Proof.Machine

/-- `PACK nt, oct, pay` (40_bitpacket.md R50). -/
def packResult (nt8 oct8 : BitVec 8) (pay12 : BitVec 12) : Result :=
  if nt8.toNat > 5 ∨ oct8.toNat > 3 ∨ pay12.toNat > 255 then raise .fieldOutOfRange
  else ret ((mkPacket (nt8.extractLsb' 0 3) (oct8.extractLsb' 0 2) (pay12.extractLsb' 0 8)).setWidth 32) 0

/-- The step of `PACK nt, oct, pay` (10_state.md R14). -/
def execPack (nt8 oct8 : BitVec 8) (pay12 : BitVec 12) (s : State) : Host.Outcome State Fault Refusal :=
  answer (packResult nt8 oct8 pay12) s

/-- `UNPACK pkt` (40_bitpacket.md R51): total, NodeType 6 and 7 are reported as they are. -/
def unpackResult (pkt : Packet) : Result :=
  ret (concat 32 [⟨4, 0⟩, ⟨8, (packetNodeType pkt).setWidth 8⟩, ⟨8, (packetOctave pkt).setWidth 8⟩,
    ⟨12, (packetPayload pkt).setWidth 12⟩]) 0

/-- The step of `UNPACK pkt` (10_state.md R14). -/
def execUnpack (pkt : Packet) (s : State) : Host.Outcome State Fault Refusal :=
  answer (unpackResult pkt) s

end Sys2Proof.Machine
end

