-- ==== Sys2Proof/Machine/Checksum.lean ====
section
/-! DEFINITION. rotary_checksum_engine: CHK_COMPUTE, CHK_VERIFY (43_checksum.md). -/

namespace Sys2Proof.Machine

/-- `STEP = floor(529 × φ) mod 529` = 326 (43_checksum.md R80). -/
def rotationStep : Nat := 326

/-- `Chk(i) = ((i + 326) mod 529) mod 16` (43_checksum.md R81). The table id does not enter (90_conflicts.md C8). -/
def chk (i : CellIndex) : Checksum :=
  BitVec.ofNat 4 (((i.val + rotationStep) % 529) % 16)

/-- `CHK_COMPUTE table, cell` (43_checksum.md R82): the table is accepted and ignored. -/
def chkComputeResult (_t : TableId) (i : BitVec 10) : Result :=
  match cellIndex? i with
  | none => raise .indexOutOfRange
  | some c => ret ((chk c).setWidth 32) 0

/-- The step of `CHK_COMPUTE table, cell` (10_state.md R14). -/
def execChkCompute (t : TableId) (i : BitVec 10) (s : State) : Host.Outcome State Fault Refusal :=
  answer (chkComputeResult t i) s

/-- `CHK_VERIFY chk, table, cell` (43_checksum.md R83): a mismatch is data 0 with status `OK`. -/
def chkVerifyResult (c : Checksum) (_t : TableId) (i : BitVec 10) : Result :=
  match cellIndex? i with
  | none => raise .indexOutOfRange
  | some cell => ret (if chk cell = c then 1 else 0) 0

/-- The step of `CHK_VERIFY chk, table, cell` (10_state.md R14). -/
def execChkVerify (c : Checksum) (t : TableId) (i : BitVec 10) (s : State) : Host.Outcome State Fault Refusal :=
  answer (chkVerifyResult c t i) s

end Sys2Proof.Machine
end

