-- ==== Sys2Proof/Machine/EncoderDecoder.lean ====
section
/-! DEFINITION. packet_encoder and packet_decoder: ENCODE, DECODE, RESOLVE (44_encoder_decoder.md). -/

namespace Sys2Proof.Machine

/-- The triplet of a packet: marker, positioned glyph, checksum glyph (44_encoder_decoder.md R92). -/
def packetTriplet (pkt : Packet) : Triplet :=
  let t := packetOctave pkt
  let i := reduce (packetPayload pkt)
  mkTriplet (marker (packetNodeType pkt)) t (cellBits i) (rom t i) (checksumGlyph (chk i))

/-- `ENCODE pkt` (44_encoder_decoder.md R92). -/
def encodeResult (pkt : Packet) : Result :=
  if validPacket pkt then ret ((packetTriplet pkt).setWidth 32) 0
  else raise .fieldOutOfRange

/-- The step of `ENCODE pkt` (10_state.md R14). -/
def execEncode (pkt : Packet) (s : State) : Host.Outcome State Fault Refusal :=
  answer (encodeResult pkt) s

/-- `DECODE ntg, table, cell, glyph, chkg` (44_encoder_decoder.md R93): the checks in exactly the rule's order. -/
def decodeResult (ntg : GlyphId) (t : TableId) (i : BitVec 10) (g cg : GlyphId) : Result :=
  if ¬ isMarker ntg ∨ ¬ isGlyph g ∨ ¬ isChecksumGlyph cg then raise .malformedGlyphTriplet
  else
    match cellIndex? i with
    | none => raise .indexOutOfRange
    | some c =>
      if rom t c ≠ g then raise .malformedGlyphTriplet
      else if chk c ≠ glyphChecksum cg then raise .checksumMismatch
      else if ¬ fitsPayload c then raise .fieldOutOfRange
      else ret ((mkPacket (ntg.extractLsb' 0 3) t (cellPayload c)).setWidth 32) 0

/-- The step of `DECODE ntg, table, cell, glyph, chkg` (10_state.md R14). -/
def execDecode (ntg : GlyphId) (t : TableId) (i : BitVec 10) (g cg : GlyphId) (s : State) : Host.Outcome State Fault Refusal :=
  answer (decodeResult ntg t i g cg) s

/-- `S = { i in 0..528 | Rom(t, i) = g and Chk(i) = c }` (44_encoder_decoder.md R94). -/
def candidates (t : TableId) (g : GlyphId) (c : Checksum) : List CellIndex :=
  cellsWhere fun i => rom t i == g && chk i == c

/-- `low := min(S) if n > 0 else 0` (44_encoder_decoder.md R94); the list runs from the lowest cell up. -/
def lowest : List CellIndex → CellIndex
  | [] => 0
  | i :: _ => i

/-- `reach := 1 if n > 0 and low <= 255 else 0` (44_encoder_decoder.md R94). -/
def reach (cells : List CellIndex) : Bool :=
  decide (cells.length > 0) && fitsPayload (lowest cells)

/-- `RESOLVE table, glyph, chkg` (44_encoder_decoder.md R94): an empty candidate set is no error. -/
def resolveResult (t : TableId) (g cg : GlyphId) : Result :=
  if ¬ isGlyph g ∨ ¬ isChecksumGlyph cg then raise .malformedGlyphTriplet
  else
    let cells := candidates t g (glyphChecksum cg)
    ret (concat 32 [⟨1, BitVec.ofBool (reach cells)⟩, ⟨10, cellBits (lowest cells)⟩, ⟨10, BitVec.ofNat 10 cells.length⟩])
      (cellSet cells)

/-- The step of `RESOLVE table, glyph, chkg` (10_state.md R14). -/
def execResolve (t : TableId) (g cg : GlyphId) (s : State) : Host.Outcome State Fault Refusal :=
  answer (resolveResult t g cg) s

end Sys2Proof.Machine
end

