-- ==== Sys2Proof/Machine/GlyphMapper.lean ====
section
/-! DEFINITION. Packet to cell address and back: TO_ADDR, FROM_ADDR (42_glyph_mapper.md). -/

namespace Sys2Proof.Machine

/-- `TO_ADDR pkt` (42_glyph_mapper.md R71). -/
def toAddrResult (pkt : Packet) : Result :=
  if validPacket pkt then ret ((mkAddr12 (packetOctave pkt) (reduce (packetPayload pkt))).setWidth 32) 0
  else raise .fieldOutOfRange

/-- The step of `TO_ADDR pkt` (10_state.md R14). -/
def execToAddr (pkt : Packet) (s : State) : Host.Outcome State Fault Refusal :=
  answer (toAddrResult pkt) s

/-- `FROM_ADDR nt, table, cell` (42_glyph_mapper.md R72): the index is tested before the fields. -/
def fromAddrResult (nt8 : BitVec 8) (t : TableId) (i : BitVec 10) : Result :=
  match cellIndex? i with
  | none => raise .indexOutOfRange
  | some c =>
    if nt8.toNat > 5 ∨ ¬ fitsPayload c then raise .fieldOutOfRange
    else ret ((mkPacket (nt8.extractLsb' 0 3) t (cellPayload c)).setWidth 32) 0

/-- The step of `FROM_ADDR nt, table, cell` (10_state.md R14). -/
def execFromAddr (nt8 : BitVec 8) (t : TableId) (i : BitVec 10) (s : State) : Host.Outcome State Fault Refusal :=
  answer (fromAddrResult nt8 t i) s

end Sys2Proof.Machine
end

