-- ==== Sys2Proof/Machine/GlyphRom.lean ====
section
/-! DEFINITION. glyph_lookup_rom: LOOKUP, LOOKUP_RC, RLOOKUP (41_glyph_rom.md). -/

namespace Sys2Proof.Machine

/-- `LOOKUP table, cell` (41_glyph_rom.md R62): row, column and glyph of a cell. -/
def lookupResult (t : TableId) (i : BitVec 10) : Result :=
  match cellIndex? i with
  | none => raise .indexOutOfRange
  | some c => ret (concat 32 [⟨17, 0⟩, ⟨5, cellRow c⟩, ⟨5, cellCol c⟩, ⟨5, rom t c⟩]) 0

/-- The step of `LOOKUP table, cell` (10_state.md R14). -/
def execLookup (t : TableId) (i : BitVec 10) (s : State) : Host.Outcome State Fault Refusal :=
  answer (lookupResult t i) s

/-- `LOOKUP_RC table, row, col` (41_glyph_rom.md R64): cell index and glyph at a row and column. -/
def lookupRcResult (t : TableId) (row col : BitVec 5) : Result :=
  match cellAt? row col with
  | none => raise .indexOutOfRange
  | some c => ret (concat 32 [⟨17, 0⟩, ⟨10, cellBits c⟩, ⟨5, rom t c⟩]) 0

/-- The step of `LOOKUP_RC table, row, col` (10_state.md R14). -/
def execLookupRc (t : TableId) (row col : BitVec 5) (s : State) : Host.Outcome State Fault Refusal :=
  answer (lookupRcResult t row col) s

/-- `S = { i in 0..528 | Rom(t, i) = g }` (41_glyph_rom.md R65). -/
def cellsHolding (t : TableId) (g : GlyphId) : List CellIndex :=
  cellsWhere fun i => rom t i == g

/-- `RLOOKUP table, glyph` (41_glyph_rom.md R65): all cells of a table that hold a glyph. -/
def rlookupResult (t : TableId) (g : GlyphId) : Result :=
  if isGlyph g then ret (BitVec.ofNat 32 (cellsHolding t g).length) (cellSet (cellsHolding t g))
  else raise .malformedGlyphTriplet

/-- The step of `RLOOKUP table, glyph` (10_state.md R14). -/
def execRlookup (t : TableId) (g : GlyphId) (s : State) : Host.Outcome State Fault Refusal :=
  answer (rlookupResult t g) s

end Sys2Proof.Machine
end

