-- ==== Sys2Proof/Machine/Dispatch.lean ====
section
/-! DEFINITION. One arm per command (30_encoding.md R46, R34 step 3). -/

namespace Sys2Proof.Machine

def exec (i : Instr) (s : State) : Host.Outcome State Fault Refusal :=
  match i with
  | .pack nt8 oct8 pay12 => Sys2Proof.Machine.execPack nt8 oct8 pay12 s
  | .unpack pkt => Sys2Proof.Machine.execUnpack pkt s
  | .lookup table cell => Sys2Proof.Machine.execLookup table cell s
  | .lookupRc table row col => Sys2Proof.Machine.execLookupRc table row col s
  | .rlookup table glyph => Sys2Proof.Machine.execRlookup table glyph s
  | .toAddr pkt => Sys2Proof.Machine.execToAddr pkt s
  | .fromAddr nt8 table cell => Sys2Proof.Machine.execFromAddr nt8 table cell s
  | .chkCompute table cell => Sys2Proof.Machine.execChkCompute table cell s
  | .chkVerify chk table cell => Sys2Proof.Machine.execChkVerify chk table cell s
  | .encode pkt => Sys2Proof.Machine.execEncode pkt s
  | .decode ntg table cell glyph chkg => Sys2Proof.Machine.execDecode ntg table cell glyph chkg s
  | .resolve table glyph chkg => Sys2Proof.Machine.execResolve table glyph chkg s

end Sys2Proof.Machine
end

