-- ==== Sys2Proof/Machine/Clock.lean ====
section
/-! DEFINITION. One rising edge of `clk` (10_state.md R14), and the trace of a run (70_reset_and_hazards.md R148). -/

namespace Sys2Proof.Machine

/-- The step taken for a command word: `Exec(cmd)` and the write of the response registers (30_encoding.md R34;
10_state.md R14). A word that is no command is answered with `ILLEGAL_COMMAND` (30_encoding.md R47). -/
def command (cmd : Word) (s : State) : Host.Outcome State Fault Refusal :=
  match decodeCmd cmd with
  | .ok i => exec i s
  | .error _ => answer (raise .illegalCommand) s

/-- The step at a rising edge at which `inp` is sampled (10_state.md R14): reset first, then a command, else idle. -/
def edge (inp : Input) (s : State) : Host.Outcome State Fault Refusal :=
  if inp.rst then clearResponse s
  else if inp.cmdValid then command inp.cmd s
  else clearResponse s

/-- The input triple of a cycle that presents a command (10_state.md R14, R18). -/
def Input.command (cmd : Word) : Input :=
  { rst := false, cmdValid := true, cmd := cmd }

/-- The response registers after each edge of a run: "the observable result of a run is the sequence of
response-register values, one per cycle" (70_reset_and_hazards.md R148). -/
def trace : List Input → State → List Response
  | [], _ => []
  | inp :: rest, s =>
    match edge inp s with
    | .next t => t.rsp :: trace rest t
    | .fault _ => []
    | .refused _ => []

end Sys2Proof.Machine
end

