-- ==== Sys2Proof/Machine/Step.lean ====
section
/-! DEFINITION. The step of the machine: sample the next input triple and take the edge. -/

namespace Sys2Proof.Machine

/-- One step: the next input triple is sampled and used up, and the edge is taken with it (10_state.md R14). With no
triple left there is no move (70_reset_and_hazards.md R147, R148; log entry 1). -/
def step (s : State) : Host.Outcome State Fault Refusal :=
  match s.inputs with
  | [] => .fault .noInput
  | inp :: rest => edge inp (s.setInputs rest)

/-- The command of the low `nbits` bits of `w` (the bits above them 0) presented at the very next edge
(`rst = 0`, `cmd_valid = 1`); the inputs already waiting follow it. CORE fetches nothing (10_state.md R13): this stands
for the host's presenting the word (log entry 1). -/
def State.withFetchWord (s : State) (nbits w : Nat) : State :=
  s.setInputs (Input.command (BitVec.ofNat 32 (w % 2 ^ nbits)) :: s.inputs)

end Sys2Proof.Machine
end

