-- ==== Sys2Proof/Machine/Assembler.lean ====
section
/-! DEFINITION. The spec's assembler syntax: each line is one input cycle (30_encoding.md R48). -/

namespace Sys2Proof.Machine

/-- The word a line assembles to, as the table of 30_encoding.md R48 writes it; `none` for the two lines that have
none. -/
def asmWord : AsmLine → Option Nat
  | .pack nt oct pay => some (0x1 <<< 28 ||| nt <<< 20 ||| oct <<< 12 ||| pay)
  | .unpack pkt => some (0x2 <<< 28 ||| pkt)
  | .lookup table cell => some (0x3 <<< 28 ||| table <<< 10 ||| cell)
  | .lookupRc table row col => some (0x4 <<< 28 ||| table <<< 10 ||| row <<< 5 ||| col)
  | .rlookup table glyph => some (0x5 <<< 28 ||| table <<< 10 ||| glyph <<< 5)
  | .toAddr pkt => some (0x6 <<< 28 ||| pkt)
  | .fromAddr nt table cell => some (0x7 <<< 28 ||| nt <<< 20 ||| table <<< 10 ||| cell)
  | .chkCompute table cell => some (0x8 <<< 28 ||| table <<< 10 ||| cell)
  | .chkVerify chk table cell => some (0x9 <<< 28 ||| chk <<< 12 ||| table <<< 10 ||| cell)
  | .encode pkt => some (0xA <<< 28 ||| pkt)
  | .decode ntg table cell glyph chkg =>
    some (0xB <<< 28 ||| ntg <<< 22 ||| table <<< 20 ||| cell <<< 10 ||| glyph <<< 5 ||| chkg)
  | .resolve table glyph chkg => some (0xC <<< 28 ||| table <<< 10 ||| glyph <<< 5 ||| chkg)
  | .word w => some w
  | .idle => none
  | .reset => none

/-- The command a line stands for, its operands cut to their fields (30_encoding.md R48, R46); `none` for `.word`,
`IDLE` and `RESET`, which "are notations for input cycles, not commands". -/
def asmInstr : AsmLine → Option Instr
  | .pack nt oct pay => some (.pack (BitVec.ofNat 8 nt) (BitVec.ofNat 8 oct) (BitVec.ofNat 12 pay))
  | .unpack pkt => some (.unpack (BitVec.ofNat 13 pkt))
  | .lookup table cell => some (.lookup (BitVec.ofNat 2 table) (BitVec.ofNat 10 cell))
  | .lookupRc table row col => some (.lookupRc (BitVec.ofNat 2 table) (BitVec.ofNat 5 row) (BitVec.ofNat 5 col))
  | .rlookup table glyph => some (.rlookup (BitVec.ofNat 2 table) (BitVec.ofNat 5 glyph))
  | .toAddr pkt => some (.toAddr (BitVec.ofNat 13 pkt))
  | .fromAddr nt table cell => some (.fromAddr (BitVec.ofNat 8 nt) (BitVec.ofNat 2 table) (BitVec.ofNat 10 cell))
  | .chkCompute table cell => some (.chkCompute (BitVec.ofNat 2 table) (BitVec.ofNat 10 cell))
  | .chkVerify chk table cell => some (.chkVerify (BitVec.ofNat 4 chk) (BitVec.ofNat 2 table) (BitVec.ofNat 10 cell))
  | .encode pkt => some (.encode (BitVec.ofNat 13 pkt))
  | .decode ntg table cell glyph chkg =>
    some (.decode (BitVec.ofNat 5 ntg) (BitVec.ofNat 2 table) (BitVec.ofNat 10 cell) (BitVec.ofNat 5 glyph)
      (BitVec.ofNat 5 chkg))
  | .resolve table glyph chkg =>
    some (.resolve (BitVec.ofNat 2 table) (BitVec.ofNat 5 glyph) (BitVec.ofNat 5 chkg))
  | .word _ => none
  | .idle => none
  | .reset => none

/-- The input cycle of a line, if the line can be assembled (30_encoding.md R48). The word on `cmd` of an `IDLE` or
`RESET` cycle is ignored by CORE (10_state.md R18); 0 is written there (log entry 9). -/
def assemble (line : AsmLine) : Option Input :=
  if line.wellFormed then
    match asmWord line with
    | some w => some { rst := false, cmdValid := true, cmd := BitVec.ofNat 32 w }
    | none => some { rst := decide (line = .reset), cmdValid := false, cmd := 0 }
  else none

/-- The input cycles of a program, if every line can be assembled (10_state.md R13: "A program for CORE is a finite
list of (rst, cmd_valid, cmd) input triples"). -/
def assembleAll : List AsmLine → Option (List Input)
  | [] => some []
  | line :: rest =>
    match assemble line, assembleAll rest with
    | some inp, some inps => some (inp :: inps)
    | _, _ => none

end Sys2Proof.Machine
end

