-- ==== Sys2Proof/Machine/Framing.lean ====
section
/-! DEFINITION. The reference host's framing software around CORE (45_host_framing.md): `split`, `reassemble`, and the
byte-buffer `encode` and `decode`, which present command words to a CORE and read its responses. No command of CORE
implements any of this; it is a contract on the host. -/

namespace Sys2Proof.Machine

/-- One element of a stream as the host receives it (45_host_framing.md R100, R104, R107). -/
inductive StreamElement where
  /-- `(seq, T)`: a sequence index and a `TRIP27`. -/
  | unit (seq : Nat) (triplet : Triplet)
  /-- Anything that is no such pair (wrong length, missing part; R107). -/
  | malformed
  deriving DecidableEq, Repr

/-- A GlyphStream: the declared bit length and the elements in order (45_host_framing.md R100). -/
structure GlyphStream where
  declaredBits : Nat
  elements : List StreamElement
  deriving DecidableEq, Repr

/-- Why the reference host gives no result. -/
inductive FramingError where
  /-- The host fails with this status code: one CORE answered, or one of the host's own (45_host_framing.md R105 to
  R107, R110). -/
  | status (code : BitVec 4)
  /-- More packets than the declared length needs: no meaning, refused (45_host_framing.md R106). -/
  | excessPackets
  /-- A declared length that is no multiple of 8: no meaning, refused (45_host_framing.md R106). -/
  | bitLengthNotBytes
  /-- CORE gave no valid response. It always gives one (10_state.md R14); the host acts on nothing else
  (70_reset_and_hazards.md R146 (c)). -/
  | noResponse
  deriving DecidableEq, Repr

/-- The bits of a byte, most significant first (45_host_framing.md R101). -/
def byteBits (b : BitVec 8) : List Bool :=
  (List.range 8).map fun j => b.getLsbD (7 - j)

/-- The bits of a 13-bit unit, most significant first (45_host_framing.md R101). -/
def packetBits (p : Packet) : List Bool :=
  (List.range 13).map fun j => p.getLsbD (12 - j)

/-- The number whose binary digits, most significant first, are the list (45_host_framing.md R101). -/
def bitsValue (bits : List Bool) : Nat :=
  bits.foldl (fun acc b => 2 * acc + b.toNat) 0

/-- `ceil(L / 13)`, the number of units `L` bits need (45_host_framing.md R102, R106). -/
def unitsNeeded (bitLength : Nat) : Nat := (bitLength + 12) / 13

/-- Unit `m` of a bit string: bit `12 - j` is bit `13 m + j` of the string, or 0 past its end (45_host_framing.md
R102). -/
def splitUnit (bits : List Bool) (m : Nat) : Packet :=
  BitVec.ofNat 13 (bitsValue ((List.range 13).map fun j => bits.getD (13 * m + j) false))

/-- The bit string of a buffer (45_host_framing.md R101). -/
def bufferBits (bytes : List (BitVec 8)) : List Bool :=
  bytes.flatMap byteBits

/-- `split(bytes) -> (units, bit_length)` (45_host_framing.md R102). -/
def splitBytes (bytes : List (BitVec 8)) : List Packet × Nat :=
  ((List.range (unitsNeeded (bufferBits bytes).length)).map (splitUnit (bufferBits bytes)), (bufferBits bytes).length)

/-- The host presents one command word to CORE and reads the response in the next cycle (70_reset_and_hazards.md R141,
R146 (b), (c)); the answer is CORE after the edge. -/
def ask (w : Word) (core : State) : Except FramingError State :=
  match edge (Input.command w) core with
  | .next t => if t.rsp.valid then .ok t else .error .noResponse
  | .fault _ => .error .noResponse
  | .refused _ => .error .noResponse

/-- The loop of `encode`: present ENCODE of each unit in order; fail with the first status that is not `OK`
(45_host_framing.md R105, R109). -/
def encodeUnits : List Packet → State → Except FramingError (List Triplet)
  | [], _ => .ok []
  | u :: us, core =>
    match ask (encodeCmd (.encode u)) core with
    | .error e => .error e
    | .ok t =>
      if t.rsp.status = Status.ok.code then
        match encodeUnits us t with
        | .error e => .error e
        | .ok ts => .ok (t.rsp.data.extractLsb' 0 27 :: ts)
      else .error (.status t.rsp.status)

/-- The elements `(0, T_0), (1, T_1), …` (45_host_framing.md R104, R105). -/
def numberFrom : Nat → List Triplet → List StreamElement
  | _, [] => []
  | m, t :: ts => .unit m t :: numberFrom (m + 1) ts

/-- `encode(bytes) -> GlyphStream` through one CORE (45_host_framing.md R105). -/
def encodeBuffer (bytes : List (BitVec 8)) (core : State) : Except FramingError GlyphStream :=
  match encodeUnits (splitBytes bytes).1 core with
  | .error e => .error e
  | .ok ts => .ok { declaredBits := (splitBytes bytes).2, elements := numberFrom 0 ts }

/-- The command word `DECODE` of a triplet: `0xB0000000 | T` (44_encoder_decoder.md R96 (a)). -/
def decodeWord (t : Triplet) : Word := concat 32 [⟨4, 0xB⟩, ⟨1, 0⟩, ⟨27, t⟩]

/-- The loop of `decode`: present DECODE of each triplet in stream order and stop at the first that is not answered
`OK` (45_host_framing.md R107, R110); an element that is no pair is `MALFORMED_GLYPH_TRIPLET` before CORE is asked. -/
def decodeElements : List StreamElement → State → Except FramingError (List (Nat × Packet))
  | [], _ => .ok []
  | .malformed :: _, _ => .error (.status Status.malformedGlyphTriplet.code)
  | .unit seq trip :: es, core =>
    match ask (decodeWord trip) core with
    | .error e => .error e
    | .ok t =>
      if t.rsp.status = Status.ok.code then
        match decodeElements es t with
        | .error e => .error e
        | .ok ps => .ok ((seq, t.rsp.data.extractLsb' 0 13) :: ps)
      else .error (.status t.rsp.status)

/-- Byte `k` of a bit string, most significant bit first (45_host_framing.md R106 step 4). -/
def byteAt (bits : List Bool) (k : Nat) : BitVec 8 :=
  BitVec.ofNat 8 (bitsValue ((List.range 8).map fun j => bits.getD (8 * k + j) false))

/-- `reassemble(packets with indices, declared_bit_length) -> bytes` (45_host_framing.md R106), its checks in the
rule's order; the two cases without a meaning are refused after them (log entry 7). -/
def reassemble (packets : List (Nat × Packet)) (declaredBits : Nat) : Except FramingError (List (BitVec 8)) :=
  if packets.length < unitsNeeded declaredBits then .error (.status Status.truncatedFrame.code)
  else if packets.map Prod.fst ≠ List.range packets.length then .error (.status Status.sequenceGap.code)
  else if packets.length > unitsNeeded declaredBits then .error .excessPackets
  else if declaredBits % 8 ≠ 0 then .error .bitLengthNotBytes
  else
    let bits := (packets.flatMap fun p => packetBits p.2).take declaredBits
    .ok ((List.range (declaredBits / 8)).map (byteAt bits))

/-- `decode(GlyphStream) -> Result<bytes, Error>` through one CORE (45_host_framing.md R107): element errors in stream
order, then the errors of the frame (R108). -/
def decodeStream (stream : GlyphStream) (core : State) : Except FramingError (List (BitVec 8)) :=
  match decodeElements stream.elements core with
  | .error e => .error e
  | .ok ps => reassemble ps stream.declaredBits

end Sys2Proof.Machine
end

