-- ==== Sys2Proof/Machine/Instances.lean ====
section
/-! DEFINITION. Several CORE instances (60_exceptions.md R133): "Instances share no state and do not communicate". -/

namespace Sys2Proof.Machine

/-- One rising edge of the clock of instance `k`, at which that instance samples `inp`; the other instances are not
touched (60_exceptions.md R133: "each is reset by its own `rst`"; log entry 10). `none` when there is no instance `k`. -/
def clockInstance (k : Nat) (inp : Input) (cores : List State) : Option (List State) :=
  match cores[k]? with
  | none => none
  | some s =>
    match edge inp s with
    | .next t => some (cores.set k t)
    | .fault _ => none
    | .refused _ => none

end Sys2Proof.Machine
end

