-- ==== Sys2Proof/Safety.lean ====
section
/-! DEFINITION. What a response of CORE must look like in every run, the two shapes of response that claims name, and
the step at which a word is presented. -/

namespace Sys2Proof.Machine

/-- The response of a command that ends with status `OK` (00_scope.md R6; 60_exceptions.md R120: code 0). -/
def okResponse (data : Word) (set : CellSet) : Response :=
  { valid := true, status := 0, data := data, set := set }

/-- The response of a command that ends with an error: data 0 and set 0 (60_exceptions.md R122). -/
def errorResponse (code : BitVec 4) : Response :=
  { valid := true, status := code, data := 0, set := 0 }

/-- One step at whose edge the host presents the word `w` (10_state.md R14); the inputs already waiting follow it. -/
def present (w : Word) (s : State) : Host.Outcome State Fault Refusal :=
  step (s.setInputs (Input.command w :: s.inputs))

/-- The number of bits of a cell set that are 1. -/
def cellCount (set : CellSet) : Nat :=
  (cellsWhere fun i => set.getLsbD i.val).length

/-- What the spec promises of the response registers after every edge:
the status is a code that CORE writes (60_exceptions.md R120: never 4, 5, 8 to 15);
without a valid response all four registers are zero (10_state.md R14);
an error carries no data and no set (30_encoding.md R35, R36);
no data word uses bits 31:28 (R35: the widest layout is 28 bits);
a set comes with its number of cells in data bits 9:0 (R35, rows RLOOKUP and RESOLVE). -/
structure Response.Sound (r : Response) : Prop where
  status_written : r.status ∈ ([0, 1, 2, 3, 6, 7] : List (BitVec 4))
  zero_if_not_valid : r.valid = false → r = ⟨false, 0, 0, 0⟩
  error_is_empty : r.status ≠ 0 → r.data = 0 ∧ r.set = 0
  data_fits : r.data.toNat < 2 ^ 28
  set_is_counted : r.set ≠ 0 → r.data.toNat % 2 ^ 10 = cellCount r.set

/-- The invariant of the machine: its response registers are sound. -/
def Inv (s : State) : Prop := s.rsp.Sound

end Sys2Proof.Machine
end

