-- ==== Sys2Proof/Certificates/Slice0/Obligations.lean ====
section
/-! DEFINITION. The statements for the provers. Values are written out from the spec's rules, as numbers, and not
through the definitions the meanings use. -/

open Sys2Proof Sys2Proof.Machine

/-! ## The command word -/

/-- Decoding the word of a command gives that command, with every operand at every value its field admits
(30_encoding.md R30, R34, R37 to R46). -/
def Obligations.DecodingAnEncodedCommandReturnsIt : Prop :=
  ∀ i : Instr, decodeCmd (encodeCmd i) = .ok i

/-- A word that decodes to a command is that command's word: each word has at most one meaning and no bit of it is
dropped (30_encoding.md R30, R34, R37 to R46). -/
def Obligations.EncodingADecodedWordReturnsIt : Prop :=
  ∀ (w : Word) (i : Instr), decodeCmd w = .ok i → encodeCmd i = w

/-- The fixed order of 30_encoding.md R34: an unassigned opcode, then a reserved bit, gives `ILLEGAL_COMMAND`; a word
that matches a row of the opcode map is that row's command; at most one row matches. -/
def Obligations.CommandWordIsReadInTheFixedOrder : Prop :=
  ∀ (w : Word) (s : State),
    (w.toNat / 2 ^ 28 ∈ [0x0, 0xD, 0xE, 0xF] → present w s = .next (s.setRsp (errorResponse 7))) ∧
    (∀ r ∈ opcodeMap, w.toNat / 2 ^ 28 = r.pattern.toNat / 2 ^ 28 → w &&& r.mask ≠ r.pattern →
      present w s = .next (s.setRsp (errorResponse 7))) ∧
    (∀ r ∈ opcodeMap, w &&& r.mask = r.pattern →
      ∃ i : Instr, i.mnemonic = r.mnemonic ∧ encodeCmd i = w ∧ present w s = exec i s) ∧
    (∀ r ∈ opcodeMap, ∀ r' ∈ opcodeMap, w &&& r.mask = r.pattern → w &&& r'.mask = r'.pattern → r = r')

/-- Words written out from the spec's encodings, one for each command, and four that are no command (30_encoding.md
R37 to R47; the examples of the command rules). -/
def Obligations.WordsOfTheSpecDecodeAsWritten : Prop :=
  decodeCmd 0x10201008 = .ok (.pack 2 1 8) ∧ decodeCmd 0x20000908 = .ok (.unpack 0x0908) ∧
  decodeCmd 0x30000431 = .ok (.lookup 1 49) ∧ decodeCmd 0x40000962 = .ok (.lookupRc 2 11 2) ∧
  decodeCmd 0x50000880 = .ok (.rlookup 2 4) ∧ decodeCmd 0x60000908 = .ok (.toAddr 0x0908) ∧
  decodeCmd 0x70200408 = .ok (.fromAddr 2 1 8) ∧ decodeCmd 0x80000408 = .ok (.chkCompute 1 8) ∧
  decodeCmd 0x9000E408 = .ok (.chkVerify 14 1 8) ∧ decodeCmd 0xA0000908 = .ok (.encode 0x0908) ∧
  decodeCmd 0xB090210E = .ok (.decode 2 1 8 8 14) ∧ decodeCmd 0xC000050E = .ok (.resolve 1 8 14) ∧
  decodeCmd 0x00000000 = .error .unassignedOpcode ∧ decodeCmd 0xFFFFFFFF = .error .unassignedOpcode ∧
  decodeCmd 0x50000001 = .error .reservedBitSet ∧ decodeCmd 0xB890210E = .error .reservedBitSet

/-! ## The step -/

/-- A step whose input presents a word that decodes to a command is `exec` of that command, at the state whose input
has been used up (10_state.md R14; 30_encoding.md R34). -/
def Obligations.StepRunsTheDecodedCommand : Prop :=
  ∀ (s : State) (rest : List Input) (w : Word) (i : Instr), decodeCmd w = .ok i →
    step (s.setInputs (Input.command w :: rest)) = exec i (s.setInputs rest)

/-- The three branches of 10_state.md R14: reset (with priority, the command discarded), a command (answered by a
status, a data word and a set that are a function of the word alone, and that `command` gives), idle. -/
def Obligations.EveryEdgeFollowsTheStepRule : Prop :=
  (∀ (s : State) (rest : List Input) (cmdValid : Bool) (cmd : Word),
    step (s.setInputs (⟨true, cmdValid, cmd⟩ :: rest)) = .next ⟨⟨false, 0, 0, 0⟩, rest⟩) ∧
  (∀ cmd : Word, ∃ (status : BitVec 4) (data : Word) (set : CellSet), ∀ (s : State) (rest : List Input),
    step (s.setInputs (⟨false, true, cmd⟩ :: rest)) = .next ⟨⟨true, status, data, set⟩, rest⟩ ∧
    command cmd s = .next ⟨⟨true, status, data, set⟩, s.inputs⟩) ∧
  (∀ (s : State) (rest : List Input) (cmd : Word),
    step (s.setInputs (⟨false, false, cmd⟩ :: rest)) = .next ⟨⟨false, 0, 0, 0⟩, rest⟩)

/-- Reset edges: each shows four zero registers, however many there are and whatever came before, and a command
presented at one is discarded (70_reset_and_hazards.md R140). -/
def Obligations.ResetEdgesClearAndHold : Prop :=
  ∀ (s : State) (inps : List Input), (∀ inp ∈ inps, inp.rst = true) →
    trace inps s = List.replicate inps.length ⟨false, 0, 0, 0⟩

/-- The machine never stops while an input is given, uses exactly one input a step, and has no move without one. That
a step without an input is a fault is the model's choice (log entry 1); the spec gives no such step. -/
def Obligations.StepStopsOnlyWithoutInput : Prop :=
  ∀ s : State,
    (∀ (inp : Input) (rest : List Input), s.inputs = inp :: rest → ∃ t : State, step s = .next t ∧ t.inputs = rest) ∧
    (s.inputs = [] → step s = .fault .noInput)

/-- A run takes every one of its edges and ends after the last: nothing is pending, one response a cycle is observed,
and the end state shows the last of them (70_reset_and_hazards.md R148). -/
def Obligations.RunEndsAfterItsLastInput : Prop :=
  ∀ s : State, (trace s.inputs s).length = s.inputs.length ∧
    ∃ t : State, Host.Core.run Sys2Proof.core s.inputs.length s = .next t ∧ t.inputs = [] ∧
      t.rsp = (trace s.inputs s).getLast?.getD s.rsp

/-- At reset the four registers are zero and the invariant holds (10_state.md R11, R19). -/
def Obligations.ResetStateIsSound : Prop :=
  State.reset.rsp = ⟨false, 0, 0, 0⟩ ∧ Inv State.reset

/-- Every step, from any state at all, leaves response registers of which everything the spec promises holds
(60_exceptions.md R120, R122; 30_encoding.md R35, R36; 10_state.md R14); so it keeps the invariant. -/
def Obligations.EveryStepLeavesASoundResponse : Prop :=
  ∀ s t : State, step s = .next t → Inv t

/-- The response to a command word is the same in every run, at every position, from every state (20_memory.md R26),
so also before any reset and after any error. -/
def Obligations.ResponseDoesNotDependOnHistory : Prop :=
  ∀ w : Word, ∃ r : Response, r.valid = true ∧
    (∀ s : State, present w s = .next (s.setRsp r)) ∧
    ∀ (s : State) (pre post : List Input), (trace (pre ++ Input.command w :: post) s)[pre.length]? = some r

/-- From power-up, with nothing assumed of the four registers: one reset edge leaves the state of reset, and a command
presented before any reset is answered as after one (70_reset_and_hazards.md section 1; 10_state.md R19). The
registers' values at power-up are the model's free values (log entry 2). -/
def Obligations.PowerUpNeedsOnlyOneResetEdge : Prop :=
  ∀ (rest : List Input) (w : Word),
    (∀ cmdValid : Bool, step (State.powerUp (⟨true, cmdValid, w⟩ :: rest)) = .next (State.reset.setInputs rest)) ∧
    ∃ t : State, step (State.powerUp (Input.command w :: rest)) = .next t ∧
      step (State.reset.setInputs (Input.command w :: rest)) = .next t

/-- The frame of all twelve commands (PACK, UNPACK, LOOKUP, LOOKUP_RC, RLOOKUP, TO_ADDR, FROM_ADDR, CHK_COMPUTE,
CHK_VERIFY, ENCODE, DECODE, RESOLVE): each answers in every state, changes the four response registers and nothing
else of the state, leaves data and set 0 on an error, and writes a set only as RLOOKUP or RESOLVE (10_state.md R11,
R14; 30_encoding.md R35, R36; 60_exceptions.md R122). -/
def Obligations.CommandsChangeOnlyTheResponse : Prop :=
  ∀ (i : Instr) (s : State), ∃ r : Response, exec i s = .next { s with rsp := r } ∧ r.valid = true ∧
    (r.status ≠ 0 → r.data = 0 ∧ r.set = 0) ∧
    (r.set ≠ 0 → i.mnemonic = "RLOOKUP" ∨ i.mnemonic = "RESOLVE")

/-- Which command can give which status (60_exceptions.md R120, R121): the column "produced by CORE". -/
def Obligations.OnlyTheListedCommandsGiveAStatus : Prop :=
  ∀ (i : Instr) (s t : State), exec i s = .next t →
    (t.rsp.status = 1 → i.mnemonic ∈ ["PACK", "TO_ADDR", "FROM_ADDR", "ENCODE", "DECODE"]) ∧
    (t.rsp.status = 2 →
      i.mnemonic ∈ ["LOOKUP", "LOOKUP_RC", "FROM_ADDR", "CHK_COMPUTE", "CHK_VERIFY", "DECODE"]) ∧
    (t.rsp.status = 3 → i.mnemonic = "DECODE") ∧
    (t.rsp.status = 6 → i.mnemonic ∈ ["RLOOKUP", "DECODE", "RESOLVE"]) ∧
    t.rsp.status ∈ ([0, 1, 2, 3, 6] : List (BitVec 4))

/-! ## What each command answers -/

/-- `PACK` (40_bitpacket.md R50). -/
def Obligations.PackResult : Prop :=
  ∀ (nt8 oct8 : BitVec 8) (pay12 : BitVec 12) (s : State),
    decodeCmd (BitVec.ofNat 32 (0x10000000 + nt8.toNat * 2 ^ 20 + oct8.toNat * 2 ^ 12 + pay12.toNat))
      = .ok (.pack nt8 oct8 pay12) ∧
    (nt8.toNat ≤ 5 ∧ oct8.toNat ≤ 3 ∧ pay12.toNat ≤ 255 →
      exec (.pack nt8 oct8 pay12) s
        = .next (s.setRsp (okResponse (BitVec.ofNat 32 (nt8.toNat * 2 ^ 10 + oct8.toNat * 2 ^ 8 + pay12.toNat)) 0))) ∧
    (5 < nt8.toNat ∨ 3 < oct8.toNat ∨ 255 < pay12.toNat →
      exec (.pack nt8 oct8 pay12) s = .next (s.setRsp (errorResponse 1)))

/-- `UNPACK` (40_bitpacket.md R51): total, NodeType 6 and 7 included. -/
def Obligations.UnpackResult : Prop :=
  ∀ (pkt : Packet) (s : State),
    decodeCmd (BitVec.ofNat 32 (0x20000000 + pkt.toNat)) = .ok (.unpack pkt) ∧
    exec (.unpack pkt) s
      = .next (s.setRsp (okResponse (BitVec.ofNat 32
          (pkt.toNat / 2 ^ 10 * 2 ^ 20 + pkt.toNat / 2 ^ 8 % 4 * 2 ^ 12 + pkt.toNat % 256)) 0))

/-- `LOOKUP` (41_glyph_rom.md R62, with the contents of R61). -/
def Obligations.LookupResult : Prop :=
  ∀ (t : TableId) (i : BitVec 10) (s : State),
    decodeCmd (BitVec.ofNat 32 (0x30000000 + t.toNat * 2 ^ 10 + i.toNat)) = .ok (.lookup t i) ∧
    (i.toNat ≤ 528 →
      exec (.lookup t i) s
        = .next (s.setRsp (okResponse
            (BitVec.ofNat 32 (i.toNat / 23 * 2 ^ 10 + i.toNat % 23 * 2 ^ 5 + i.toNat % 21)) 0))) ∧
    (528 < i.toNat → exec (.lookup t i) s = .next (s.setRsp (errorResponse 2)))

/-- `LOOKUP_RC` (41_glyph_rom.md R64, with the contents of R61). -/
def Obligations.LookupRcResult : Prop :=
  ∀ (t : TableId) (row col : BitVec 5) (s : State),
    decodeCmd (BitVec.ofNat 32 (0x40000000 + t.toNat * 2 ^ 10 + row.toNat * 2 ^ 5 + col.toNat))
      = .ok (.lookupRc t row col) ∧
    (row.toNat ≤ 22 ∧ col.toNat ≤ 22 →
      exec (.lookupRc t row col) s
        = .next (s.setRsp (okResponse (BitVec.ofNat 32
            ((row.toNat * 23 + col.toNat) * 2 ^ 5 + (row.toNat * 23 + col.toNat) % 21)) 0))) ∧
    (22 < row.toNat ∨ 22 < col.toNat → exec (.lookupRc t row col) s = .next (s.setRsp (errorResponse 2)))

/-- `RLOOKUP` (41_glyph_rom.md R65, with the contents of R61): the set of all cells that hold the glyph, and its
size. -/
def Obligations.RlookupResult : Prop :=
  ∀ (t : TableId) (g : GlyphId) (s : State),
    decodeCmd (BitVec.ofNat 32 (0x50000000 + t.toNat * 2 ^ 10 + g.toNat * 2 ^ 5)) = .ok (.rlookup t g) ∧
    (g.toNat ≤ 20 → ∃ set : CellSet,
      exec (.rlookup t g) s
        = .next (s.setRsp (okResponse
            (BitVec.ofNat 32 ((Finset.range 529).filter fun i => i % 21 = g.toNat).card) set)) ∧
      ∀ i : Nat, set.getLsbD i = decide (i < 529 ∧ i % 21 = g.toNat)) ∧
    (20 < g.toNat → exec (.rlookup t g) s = .next (s.setRsp (errorResponse 6)))

/-- `TO_ADDR` (42_glyph_mapper.md R71, with `reduce` the identity, R70). -/
def Obligations.ToAddrResult : Prop :=
  ∀ (pkt : Packet) (s : State),
    decodeCmd (BitVec.ofNat 32 (0x60000000 + pkt.toNat)) = .ok (.toAddr pkt) ∧
    (pkt.toNat / 2 ^ 10 ≤ 5 →
      exec (.toAddr pkt) s
        = .next (s.setRsp (okResponse (BitVec.ofNat 32 (pkt.toNat / 2 ^ 8 % 4 * 2 ^ 10 + pkt.toNat % 256)) 0))) ∧
    (5 < pkt.toNat / 2 ^ 10 → exec (.toAddr pkt) s = .next (s.setRsp (errorResponse 1)))

/-- `FROM_ADDR` (42_glyph_mapper.md R72): the index is tested before the fields. -/
def Obligations.FromAddrResult : Prop :=
  ∀ (nt8 : BitVec 8) (t : TableId) (i : BitVec 10) (s : State),
    decodeCmd (BitVec.ofNat 32 (0x70000000 + nt8.toNat * 2 ^ 20 + t.toNat * 2 ^ 10 + i.toNat))
      = .ok (.fromAddr nt8 t i) ∧
    (528 < i.toNat → exec (.fromAddr nt8 t i) s = .next (s.setRsp (errorResponse 2))) ∧
    (i.toNat ≤ 528 ∧ (5 < nt8.toNat ∨ 255 < i.toNat) →
      exec (.fromAddr nt8 t i) s = .next (s.setRsp (errorResponse 1))) ∧
    (nt8.toNat ≤ 5 ∧ i.toNat ≤ 255 →
      exec (.fromAddr nt8 t i) s
        = .next (s.setRsp (okResponse (BitVec.ofNat 32 (nt8.toNat * 2 ^ 10 + t.toNat * 2 ^ 8 + i.toNat)) 0)))

/-- `CHK_COMPUTE` (43_checksum.md R82, with the function of R81): the table is ignored. -/
def Obligations.ChkComputeResult : Prop :=
  ∀ (t : TableId) (i : BitVec 10) (s : State),
    decodeCmd (BitVec.ofNat 32 (0x80000000 + t.toNat * 2 ^ 10 + i.toNat)) = .ok (.chkCompute t i) ∧
    (i.toNat ≤ 528 →
      exec (.chkCompute t i) s
        = .next (s.setRsp (okResponse (BitVec.ofNat 32 (((i.toNat + 326) % 529) % 16)) 0))) ∧
    (528 < i.toNat → exec (.chkCompute t i) s = .next (s.setRsp (errorResponse 2)))

/-- `CHK_VERIFY` (43_checksum.md R83, with the function of R81): a mismatch is data 0 with status `OK`. -/
def Obligations.ChkVerifyResult : Prop :=
  ∀ (c : Checksum) (t : TableId) (i : BitVec 10) (s : State),
    decodeCmd (BitVec.ofNat 32 (0x90000000 + c.toNat * 2 ^ 12 + t.toNat * 2 ^ 10 + i.toNat))
      = .ok (.chkVerify c t i) ∧
    (i.toNat ≤ 528 ∧ ((i.toNat + 326) % 529) % 16 = c.toNat →
      exec (.chkVerify c t i) s = .next (s.setRsp (okResponse 1 0))) ∧
    (i.toNat ≤ 528 ∧ ((i.toNat + 326) % 529) % 16 ≠ c.toNat →
      exec (.chkVerify c t i) s = .next (s.setRsp (okResponse 0 0))) ∧
    (528 < i.toNat → exec (.chkVerify c t i) s = .next (s.setRsp (errorResponse 2)))

/-- `ENCODE` (44_encoder_decoder.md R92, with R61, R81, R90, R91). -/
def Obligations.EncodeResult : Prop :=
  ∀ (pkt : Packet) (s : State),
    decodeCmd (BitVec.ofNat 32 (0xA0000000 + pkt.toNat)) = .ok (.encode pkt) ∧
    (pkt.toNat / 2 ^ 10 ≤ 5 →
      exec (.encode pkt) s
        = .next (s.setRsp (okResponse (BitVec.ofNat 32
            (pkt.toNat / 2 ^ 10 * 2 ^ 22 + pkt.toNat / 2 ^ 8 % 4 * 2 ^ 20 + pkt.toNat % 256 * 2 ^ 10
              + pkt.toNat % 256 % 21 * 2 ^ 5 + ((pkt.toNat % 256 + 326) % 529) % 16)) 0))) ∧
    (5 < pkt.toNat / 2 ^ 10 → exec (.encode pkt) s = .next (s.setRsp (errorResponse 1)))

/-- `DECODE` (44_encoder_decoder.md R93, with R61 and R81): the five checks in the rule's order, then the packet. -/
def Obligations.DecodeResult : Prop :=
  ∀ (ntg : GlyphId) (t : TableId) (i : BitVec 10) (g cg : GlyphId) (s : State),
    decodeCmd (BitVec.ofNat 32
        (0xB0000000 + ntg.toNat * 2 ^ 22 + t.toNat * 2 ^ 20 + i.toNat * 2 ^ 10 + g.toNat * 2 ^ 5 + cg.toNat))
      = .ok (.decode ntg t i g cg) ∧
    (5 < ntg.toNat ∨ 20 < g.toNat ∨ 15 < cg.toNat →
      exec (.decode ntg t i g cg) s = .next (s.setRsp (errorResponse 6))) ∧
    (ntg.toNat ≤ 5 ∧ g.toNat ≤ 20 ∧ cg.toNat ≤ 15 →
      (528 < i.toNat → exec (.decode ntg t i g cg) s = .next (s.setRsp (errorResponse 2))) ∧
      (i.toNat ≤ 528 ∧ i.toNat % 21 ≠ g.toNat →
        exec (.decode ntg t i g cg) s = .next (s.setRsp (errorResponse 6))) ∧
      (i.toNat ≤ 528 ∧ i.toNat % 21 = g.toNat ∧ ((i.toNat + 326) % 529) % 16 ≠ cg.toNat →
        exec (.decode ntg t i g cg) s = .next (s.setRsp (errorResponse 3))) ∧
      (255 < i.toNat ∧ i.toNat ≤ 528 ∧ i.toNat % 21 = g.toNat ∧ ((i.toNat + 326) % 529) % 16 = cg.toNat →
        exec (.decode ntg t i g cg) s = .next (s.setRsp (errorResponse 1))) ∧
      (i.toNat ≤ 255 ∧ i.toNat % 21 = g.toNat ∧ ((i.toNat + 326) % 529) % 16 = cg.toNat →
        exec (.decode ntg t i g cg) s
          = .next (s.setRsp (okResponse
              (BitVec.ofNat 32 (ntg.toNat * 2 ^ 10 + t.toNat * 2 ^ 8 + i.toNat)) 0))))

/-- `RESOLVE` (44_encoder_decoder.md R94, with R61 and R81): the candidates, their number, the lowest, and `reach`; no
candidate is no error. -/
def Obligations.ResolveResult : Prop :=
  ∀ (t : TableId) (g cg : GlyphId) (s : State),
    decodeCmd (BitVec.ofNat 32 (0xC0000000 + t.toNat * 2 ^ 10 + g.toNat * 2 ^ 5 + cg.toNat)) = .ok (.resolve t g cg) ∧
    (g.toNat ≤ 20 ∧ cg.toNat ≤ 15 →
      ∀ S : Finset Nat, (∀ i, i ∈ S ↔ i < 529 ∧ i % 21 = g.toNat ∧ ((i + 326) % 529) % 16 = cg.toNat) →
      ∃ (low reach : Nat) (set : CellSet),
        exec (.resolve t g cg) s
          = .next (s.setRsp (okResponse (BitVec.ofNat 32 (reach * 2 ^ 20 + low * 2 ^ 10 + S.card)) set)) ∧
        (∀ i : Nat, set.getLsbD i = decide (i ∈ S)) ∧
        (S = ∅ → low = 0 ∧ reach = 0) ∧
        (S ≠ ∅ → low ∈ S ∧ (∀ i ∈ S, low ≤ i) ∧ reach = if low ≤ 255 then 1 else 0)) ∧
    (20 < g.toNat ∨ 15 < cg.toNat → exec (.resolve t g cg) s = .next (s.setRsp (errorResponse 6)))

/-! ## Laws of the codec -/

/-- The round trip of 40_bitpacket.md R52, in all three of its sentences. -/
def Obligations.PackAndUnpackRoundTrip : Prop :=
  (∀ (p : Packet) (s : State), ∃ (d : Word) (i : Instr),
    exec (.unpack p) s = .next (s.setRsp (okResponse d 0)) ∧
    decodeCmd (0x10000000 ||| d) = .ok i ∧ i.mnemonic = "PACK" ∧
    (p.toNat / 2 ^ 10 ≤ 5 → exec i s = .next (s.setRsp (okResponse (p.setWidth 32) 0))) ∧
    (5 < p.toNat / 2 ^ 10 → exec i s = .next (s.setRsp (errorResponse 1)))) ∧
  (∀ (nt8 oct8 : BitVec 8) (pay12 : BitVec 12) (s : State),
    nt8.toNat ≤ 5 ∧ oct8.toNat ≤ 3 ∧ pay12.toNat ≤ 255 → ∃ p : Packet,
      exec (.pack nt8 oct8 pay12) s = .next (s.setRsp (okResponse (p.setWidth 32) 0)) ∧
      exec (.unpack p) s = .next (s.setRsp (okResponse
        (BitVec.ofNat 32 (nt8.toNat * 2 ^ 20 + oct8.toNat * 2 ^ 12 + pay12.toNat)) 0)))

/-- The round trip between packets and cell addresses (42_glyph_mapper.md section 3, a law the spec marks as derived
from R71 and R72). -/
def Obligations.AddressRoundTrip : Prop :=
  (∀ (p : Packet) (s : State), p.toNat / 2 ^ 10 ≤ 5 → ∃ (t : TableId) (i : BitVec 10),
    exec (.toAddr p) s = .next (s.setRsp (okResponse (BitVec.ofNat 32 (t.toNat * 2 ^ 10 + i.toNat)) 0)) ∧
    exec (.fromAddr (BitVec.ofNat 8 (p.toNat / 2 ^ 10)) t i) s = .next (s.setRsp (okResponse (p.setWidth 32) 0))) ∧
  (∀ (nt8 : BitVec 8) (t : TableId) (i : BitVec 10) (s : State), nt8.toNat ≤ 5 ∧ i.toNat ≤ 255 →
    ∃ p : Packet, p.toNat / 2 ^ 10 = nt8.toNat ∧
      exec (.fromAddr nt8 t i) s = .next (s.setRsp (okResponse (p.setWidth 32) 0)) ∧
      exec (.toAddr p) s = .next (s.setRsp (okResponse (BitVec.ofNat 32 (t.toNat * 2 ^ 10 + i.toNat)) 0)))

/-- The two addressing forms name the same cell: `LOOKUP_RC t, r, c` and `LOOKUP t, r × 23 + c` give the same glyph,
and each reports the other's form of the address (20_memory.md section 1; 41_glyph_rom.md R64, corner cases). -/
def Obligations.RowAndColumnNameTheSameCell : Prop :=
  ∀ (t : TableId) (row col : BitVec 5) (s : State), row.toNat ≤ 22 ∧ col.toNat ≤ 22 →
    ∃ (i : BitVec 10) (g : GlyphId), g.toNat ≤ 20 ∧ i.toNat = row.toNat * 23 + col.toNat ∧
      exec (.lookupRc t row col) s
        = .next (s.setRsp (okResponse (BitVec.ofNat 32 (i.toNat * 2 ^ 5 + g.toNat)) 0)) ∧
      exec (.lookup t i) s
        = .next (s.setRsp (okResponse (BitVec.ofNat 32 (row.toNat * 2 ^ 10 + col.toNat * 2 ^ 5 + g.toNat)) 0))

/-- LOOKUP followed by RLOOKUP of the glyph it gave returns a set that holds the original index among 24 or 25 others
(41_glyph_rom.md section 3, a law the spec marks as derived). -/
def Obligations.ReverseLookupIsNeverUnique : Prop :=
  ∀ (t : TableId) (i : BitVec 10) (s : State), i.toNat ≤ 528 →
    ∃ (d : Word) (set : CellSet),
      exec (.lookup t i) s = .next (s.setRsp (okResponse d 0)) ∧
      exec (.rlookup t (d.extractLsb' 0 5)) s
        = .next (s.setRsp (okResponse (if (d.extractLsb' 0 5).toNat ≤ 3 then 26 else 25) set)) ∧
      set.getLsbD i.toNat = true

/-- The checksum's step is the golden ratio's: `STEP = floor(529 × φ) mod 529 = 326` (43_checksum.md R80). -/
def Obligations.RotationStepIsTheGoldenStep : Prop :=
  ⌊(529 : ℝ) * Real.goldenRatio⌋ = 855 ∧ (rotationStep : Int) = ⌊(529 : ℝ) * Real.goldenRatio⌋ % 529 ∧
    rotationStep = 326

/-- The closed form of the checksum, with its wrap point between 202 and 203, as CHK_COMPUTE answers it
(43_checksum.md section 1, the form the spec marks as derived). -/
def Obligations.ChecksumWrapsAtTwoHundredAndThree : Prop :=
  ∀ (t : TableId) (i : BitVec 10) (s : State),
    (i.toNat ≤ 202 →
      exec (.chkCompute t i) s = .next (s.setRsp (okResponse (BitVec.ofNat 32 ((i.toNat + 6) % 16)) 0))) ∧
    (203 ≤ i.toNat ∧ i.toNat ≤ 528 →
      exec (.chkCompute t i) s = .next (s.setRsp (okResponse (BitVec.ofNat 32 ((i.toNat + 5) % 16)) 0)))

/-- Each checksum value stands at 33 cells, value 0 at 34 (43_checksum.md section 3, derived there by enumeration). -/
def Obligations.ChecksumValuesAreSpreadEvenly : Prop :=
  ∀ c : Checksum, ((Finset.univ : Finset CellIndex).filter fun i => chk i = c).card = if c = 0 then 34 else 33

/-- The flips of bit `k` of index `i` that the table of 43_checksum.md section 3 lists as undetected. -/
def Sys2Proof.flipIsUndetected (k i : Nat) : Bool :=
  match k with
  | 0 => decide (i = 202 ∨ i = 203)
  | 4 => decide ¬ ((192 ≤ i ∧ i ≤ 202) ∨ (208 ≤ i ∧ i ≤ 218))
  | 5 => decide ¬ ((192 ≤ i ∧ i ≤ 202) ∨ (224 ≤ i ∧ i ≤ 234))
  | 6 => decide ¬ ((139 ≤ i ∧ i ≤ 191) ∨ (203 ≤ i ∧ i ≤ 255))
  | 7 => decide ¬ ((75 ≤ i ∧ i ≤ 127) ∨ (203 ≤ i ∧ i ≤ 255))
  | 8 => decide ((203 ≤ i ∧ i ≤ 255) ∨ (459 ≤ i ∧ i ≤ 511))
  | _ => false

/-- Flip one bit of a cell index and verify the old checksum at the new index: CHK_VERIFY answers 1 exactly for the
collisions that the table of 43_checksum.md section 3 documents (derived there by enumeration). -/
def Obligations.OneBitIndexFlipsPassOnlyAsDocumented : Prop :=
  ∀ (c : Checksum) (t : TableId) (i i' : BitVec 10) (k : Nat) (s : State),
    k < 10 → i' = i ^^^ BitVec.twoPow 10 k → i.toNat ≤ 528 → i'.toNat ≤ 528 →
    exec (.chkVerify c t i) s = .next (s.setRsp (okResponse 1 0)) →
    exec (.chkVerify c t i') s = .next (s.setRsp (okResponse (if flipIsUndetected k i.toNat then 1 else 0) 0))

/-- ENCODE is the composition of TO_ADDR, LOOKUP and CHK_COMPUTE, with the NodeType in front (44_encoder_decoder.md
R92, corner cases). -/
def Obligations.EncodeIsTheCompositionOfItsStages : Prop :=
  ∀ (p : Packet) (s : State), p.toNat / 2 ^ 10 ≤ 5 →
    ∃ (t : TableId) (i : BitVec 10) (look sum : Word),
      exec (.toAddr p) s = .next (s.setRsp (okResponse (BitVec.ofNat 32 (t.toNat * 2 ^ 10 + i.toNat)) 0)) ∧
      exec (.lookup t i) s = .next (s.setRsp (okResponse look 0)) ∧
      exec (.chkCompute t i) s = .next (s.setRsp (okResponse sum 0)) ∧
      exec (.encode p) s = .next (s.setRsp (okResponse (BitVec.ofNat 32
        (p.toNat / 2 ^ 10 * 2 ^ 22 + t.toNat * 2 ^ 20 + i.toNat * 2 ^ 10 + look.toNat % 32 * 2 ^ 5 + sum.toNat)) 0))

/-- Per packet, decode inverts encode: the command `0xB0000000 | T` of the triplet `T` that ENCODE gave returns the
packet (44_encoder_decoder.md section 3 (a), a law the spec marks as derived). -/
def Obligations.DecodeInvertsEncode : Prop :=
  ∀ (p : Packet) (s : State), p.toNat / 2 ^ 10 ≤ 5 →
    ∃ (d : Word) (i : Instr), exec (.encode p) s = .next (s.setRsp (okResponse d 0)) ∧
      decodeCmd (0xB0000000 ||| d) = .ok i ∧ i.mnemonic = "DECODE" ∧
      exec i s = .next (s.setRsp (okResponse (p.setWidth 32) 0))

/-- DECODE succeeds only on triplets that ENCODE produces, and on no two packets' triplets alike: ENCODE is injective
on valid packets (44_encoder_decoder.md section 3 (b), a law the spec marks as derived). -/
def Obligations.DecodeSucceedsOnlyOnEncodings : Prop :=
  (∀ (ntg : GlyphId) (t : TableId) (i : BitVec 10) (g cg : GlyphId) (s : State) (d : Word) (set : CellSet),
    exec (.decode ntg t i g cg) s = .next (s.setRsp (okResponse d set)) →
    ∃ p : Packet, p.toNat / 2 ^ 10 ≤ 5 ∧ d = p.setWidth 32 ∧ set = 0 ∧
      exec (.encode p) s = .next (s.setRsp (okResponse (BitVec.ofNat 32
        (ntg.toNat * 2 ^ 22 + t.toNat * 2 ^ 20 + i.toNat * 2 ^ 10 + g.toNat * 2 ^ 5 + cg.toNat)) 0))) ∧
  (∀ (p q : Packet) (s : State) (d : Word),
    exec (.encode p) s = .next (s.setRsp (okResponse d 0)) →
    exec (.encode q) s = .next (s.setRsp (okResponse d 0)) → p = q)

/-- What DECODE answers to the triplet of packet `p` with bit `k` flipped (44_encoder_decoder.md section 3 (c) to
(e)). -/
def Sys2Proof.flippedTripletResponse (p : Packet) (k : Nat) : Response :=
  if k < 4 then errorResponse 3
  else if k < 10 then errorResponse 6
  else if k < 20 then (if k = 19 ∧ 17 ≤ p.toNat % 256 then errorResponse 2 else errorResponse 6)
  else if k < 25 ∧ (p ^^^ BitVec.twoPow 13 (k - 12)).toNat / 2 ^ 10 ≤ 5 then
    okResponse ((p ^^^ BitVec.twoPow 13 (k - 12)).setWidth 32) 0
  else errorResponse 6

/-- Every one-bit corruption of an encoded triplet: the checksum glyph, the glyph and the cell are always detected, with
the status the spec names; the table never, and the marker only when it is no marker any more (44_encoder_decoder.md
section 3 (c) to (e), laws the spec marks as derived). -/
def Obligations.OneBitTripletFlipsAreDetectedAsDocumented : Prop :=
  ∀ (p : Packet) (s : State) (d : Word) (k : Nat), k < 27 →
    exec (.encode p) s = .next (s.setRsp (okResponse d 0)) →
    ∃ i : Instr, decodeCmd (0xB0000000 ||| (d ^^^ BitVec.twoPow 32 k)) = .ok i ∧ i.mnemonic = "DECODE" ∧
      exec i s = .next (s.setRsp (flippedTripletResponse p k))

/-- What a bare glyph and its checksum glyph determine: at most two cells, two always 273 apart and the lower one a
payload; none for exactly ten pairs; never two payloads (44_encoder_decoder.md section 3, laws the spec marks as
derived). -/
def Obligations.GlyphAndChecksumLeaveAtMostTwoCells : Prop :=
  ∀ (t : TableId) (g cg : GlyphId) (s : State), g.toNat ≤ 20 → cg.toNat ≤ 15 →
    ∃ (n low reach : Nat) (set : CellSet), n ≤ 2 ∧ low ≤ 528 ∧ reach ≤ 1 ∧
      exec (.resolve t g cg) s
        = .next (s.setRsp (okResponse (BitVec.ofNat 32 (reach * 2 ^ 20 + low * 2 ^ 10 + n)) set)) ∧
      (n = 0 ↔ 4 ≤ g.toNat ∧ g.toNat ≤ 13 ∧ cg.toNat = g.toNat + 2) ∧
      (n = 2 → reach = 1 ∧ ∀ i : Nat, set.getLsbD i = true ↔ i = low ∨ i = low + 273) ∧
      (∀ i j : Nat, i ≤ 255 → j ≤ 255 → set.getLsbD i = true → set.getLsbD j = true → i = j)

/-- A bare glyph and its checksum glyph, taken from ENCODE, determine the Payload in whichever table they are resolved:
RESOLVE reaches exactly it (44_encoder_decoder.md section 3, laws the spec marks as derived). -/
def Obligations.ResolveRecoversThePayload : Prop :=
  ∀ (p : Packet) (t : TableId) (s : State) (d : Word),
    exec (.encode p) s = .next (s.setRsp (okResponse d 0)) →
    ∃ (n : Nat) (set : CellSet), 1 ≤ n ∧ n ≤ 2 ∧
      exec (.resolve t (d.extractLsb' 5 5) (d.extractLsb' 0 5)) s
        = .next (s.setRsp (okResponse (BitVec.ofNat 32 (2 ^ 20 + p.toNat % 256 * 2 ^ 10 + n)) set)) ∧
      set.getLsbD (p.toNat % 256) = true

/-! ## The assembler, several instances, and the host's framing contract -/

/-- Every line of the assembler syntax assembles to the input cycle 30_encoding.md R48 gives it, and a line with an
operand that does not fit its field does not assemble. An `IDLE` or `RESET` cycle has no word: whatever is on `cmd`. -/
def Obligations.AssemblerAgreesWithTheEncoder : Prop :=
  (∀ line : AsmLine, line.wellFormed = false → assemble line = none) ∧
  (∀ (line : AsmLine) (i : Instr), line.wellFormed = true → asmInstr line = some i →
    assemble line = some ⟨false, true, encodeCmd i⟩ ∧ decodeCmd (encodeCmd i) = .ok i) ∧
  (∀ w : Nat, w < 2 ^ 32 → assemble (.word w) = some ⟨false, true, BitVec.ofNat 32 w⟩) ∧
  (∃ w : Word, assemble .idle = some ⟨false, false, w⟩) ∧
  (∃ (v : Bool) (w : Word), assemble .reset = some ⟨true, v, w⟩)

/-- Instances share nothing: an edge of one leaves every other as it was, and answers its input as any other instance
in any state would (60_exceptions.md R133; 20_memory.md R26). -/
def Obligations.InstancesShareNothing : Prop :=
  ∀ (k : Nat) (inp : Input) (cores : List State) (s : State), cores[k]? = some s →
    ∃ (cores' : List State) (r : Response), clockInstance k inp cores = some cores' ∧
      cores'.length = cores.length ∧ cores'[k]? = some (s.setRsp r) ∧
      (∀ j : Nat, j ≠ k → cores'[j]? = cores[j]?) ∧
      ∀ s' : State, edge inp s' = .next (s'.setRsp r)

/-- `split` (45_host_framing.md R102 with the bit order of R101): the number of units, the bit length, and every bit of
every unit, with zeros past the end of the buffer. -/
def Obligations.SplitCutsTheBitString : Prop :=
  ∀ bytes : List (BitVec 8),
    (splitBytes bytes).2 = 8 * bytes.length ∧
    (splitBytes bytes).1.length = (8 * bytes.length + 12) / 13 ∧
    ∀ m j : Nat, m < (8 * bytes.length + 12) / 13 → j < 13 →
      ((splitBytes bytes).1.getD m 0).getLsbD (12 - j)
        = (decide (13 * m + j < 8 * bytes.length)
            && (bytes.getD ((13 * m + j) / 8) 0).getLsbD (7 - (13 * m + j) % 8))

/-- `encode` of a buffer (45_host_framing.md R105): element `m` is the index `m` beside the triplet ENCODE gives for
unit `m`; it fails with `FIELD_OUT_OF_RANGE` as soon as one unit has NodeType 6 or 7. -/
def Obligations.EncodeBufferNumbersItsTriplets : Prop :=
  ∀ (bytes : List (BitVec 8)) (core : State),
    ((∀ u ∈ (splitBytes bytes).1, u.toNat / 2 ^ 10 ≤ 5) → ∃ elements : List StreamElement,
      encodeBuffer bytes core = .ok ⟨8 * bytes.length, elements⟩ ∧
      elements.length = (splitBytes bytes).1.length ∧
      ∀ m : Nat, m < elements.length → ∃ trip : Triplet, elements[m]? = some (.unit m trip) ∧
        exec (.encode ((splitBytes bytes).1.getD m 0)) core
          = .next (core.setRsp (okResponse (trip.setWidth 32) 0))) ∧
    ((∃ u ∈ (splitBytes bytes).1, 5 < u.toNat / 2 ^ 10) → encodeBuffer bytes core = .error (.status 1))

/-- `reassemble` (45_host_framing.md R106): too few packets, then a gap in the indices, then the two cases without a
meaning, refused; otherwise the bytes whose bits are the packets' bits, most significant first. That the refusals are
tried last is the model's reading (log entry 7). -/
def Obligations.ReassembleChecksThenJoinsTheBits : Prop :=
  ∀ (packets : List (Nat × Packet)) (bitLength : Nat),
    (packets.length < (bitLength + 12) / 13 → reassemble packets bitLength = .error (.status 4)) ∧
    ((bitLength + 12) / 13 ≤ packets.length →
      (packets.map Prod.fst ≠ List.range packets.length → reassemble packets bitLength = .error (.status 5)) ∧
      (packets.map Prod.fst = List.range packets.length →
        ((bitLength + 12) / 13 < packets.length ∨ bitLength % 8 ≠ 0 →
          reassemble packets bitLength = .error .excessPackets ∨
          reassemble packets bitLength = .error .bitLengthNotBytes) ∧
        (packets.length = (bitLength + 12) / 13 ∧ bitLength % 8 = 0 → ∃ bytes : List (BitVec 8),
          reassemble packets bitLength = .ok bytes ∧ 8 * bytes.length = bitLength ∧
          ∀ n : Nat, n < bitLength →
            (bytes.getD (n / 8) 0).getLsbD (7 - n % 8) = (packets.getD (n / 13) (0, 0)).2.getLsbD (12 - n % 13))))

/-- The first element that CORE does not accept decides: its status is the host's, whatever comes after it and whatever
is wrong with the frame, and no bytes are given (45_host_framing.md R107, R108, R110). -/
def Obligations.FirstBadElementEndsTheFrame : Prop :=
  ∀ (good post : List StreamElement) (bitLength : Nat) (core : State),
    (∀ e ∈ good, ∃ (seq : Nat) (trip : Triplet) (t : State),
      e = .unit seq trip ∧ present (decodeWord trip) core = .next t ∧ t.rsp.status = 0) →
    (∀ (seq : Nat) (trip : Triplet) (t : State), present (decodeWord trip) core = .next t → t.rsp.status ≠ 0 →
      decodeStream ⟨bitLength, good ++ .unit seq trip :: post⟩ core = .error (.status t.rsp.status)) ∧
    decodeStream ⟨bitLength, good ++ .malformed :: post⟩ core = .error (.status 6)

/-- The "HELLO" scenario of 45_host_framing.md section 4: the four triplets, the way back, and the corrupted checksum
glyph of the second (values derived there from the rules). -/
def Obligations.HelloScenario : Prop :=
  encodeBuffer [0x48, 0x45, 0x4C, 0x4C, 0x4F] State.reset
    = .ok ⟨40, [.unit 0 0x090210E, .unit 1 0x150C4E7, .unit 2 0x0609E4D, .unit 3 0x1000006]⟩ ∧
  decodeStream ⟨40, [.unit 0 0x090210E, .unit 1 0x150C4E7, .unit 2 0x0609E4D, .unit 3 0x1000006]⟩ State.reset
    = .ok [0x48, 0x45, 0x4C, 0x4C, 0x4F] ∧
  decodeStream ⟨40, [.unit 0 0x090210E, .unit 1 0x150C4E6, .unit 2 0x0609E4D, .unit 3 0x1000006]⟩ State.reset
    = .error (.status 3)

/-- The host's round trip through two COREs in any states: every buffer all of whose units have NodeType at most 5
comes back exactly (45_host_framing.md section 4, a law the spec marks as derived). -/
def Obligations.BufferRoundTrip : Prop :=
  ∀ (bytes : List (BitVec 8)) (core core' : State), (∀ u ∈ (splitBytes bytes).1, u.toNat / 2 ^ 10 ≤ 5) →
    ∃ stream : GlyphStream, encodeBuffer bytes core = .ok stream ∧ decodeStream stream core' = .ok bytes
end

