-- ==== Sys2Proof/Laws/Bits.lean ====
section
/-! SUPPORT. Concatenation and slices as arithmetic on numbers, so that `omega` can finish a claim about fields. -/

namespace Sys2Proof.Machine

@[simp] theorem concat_toNat (w : Nat) (fs : List (Σ n : Nat, BitVec n)) :
    (concat w fs).toNat = concatNat fs % 2 ^ w := by
  simp [concat]

theorem extractLsb'_toNat_div {n : Nat} (v : BitVec n) (lo len : Nat) :
    (v.extractLsb' lo len).toNat = v.toNat / 2 ^ lo % 2 ^ len := by
  simp [BitVec.extractLsb'_toNat, Nat.shiftRight_eq_div_pow]

/-- A slice of a concatenation, as a number. -/
theorem extractLsb'_concat_toNat (w lo len : Nat) (fs : List (Σ n : Nat, BitVec n)) :
    ((concat w fs).extractLsb' lo len).toNat = concatNat fs % 2 ^ w / 2 ^ lo % 2 ^ len := by
  rw [extractLsb'_toNat_div, concat_toNat]

@[simp] theorem concatNat_nil : concatNat [] = 0 := rfl

theorem concatNat_append (fs gs : List (Σ n : Nat, BitVec n)) :
    concatNat (fs ++ gs) = gs.foldl (fun acc f => acc * 2 ^ f.1 + f.2.toNat) (concatNat fs) := by
  simp [concatNat]

/-- The last field of a concatenation is the least significant. -/
theorem concatNat_concat_last (fs : List (Σ n : Nat, BitVec n)) (f : Σ n : Nat, BitVec n) :
    concatNat (fs ++ [f]) = concatNat fs * 2 ^ f.1 + f.2.toNat := by
  simp [concatNat_append]

end Sys2Proof.Machine

namespace Sys2Proof

theorem zeroBits_iff (w : Word) (lo len : Nat) : zeroBits w lo len = true ↔ w.toNat / 2 ^ lo % 2 ^ len = 0 := by
  rw [zeroBits, beq_iff_eq, ← BitVec.toNat_inj, Machine.extractLsb'_toNat_div]
  simp

/-- Two words agree on a block of bits when the block is the same number in both. -/
theorem block_eq_iff (w p : Word) (lo len : Nat) :
    w.toNat / 2 ^ lo % 2 ^ len = p.toNat / 2 ^ lo % 2 ^ len ↔
      ∀ j, lo ≤ j → j < lo + len → w.getLsbD j = p.getLsbD j := by
  constructor
  · intro h j hlo hhi
    have hb := congrArg (fun n => n.testBit (j - lo)) h
    simp only [Nat.testBit_mod_two_pow, Nat.testBit_div_two_pow] at hb
    have hlt : j - lo < len := by omega
    have hj : j - lo + lo = j := by omega
    simpa [hlt, hj, BitVec.getLsbD] using hb
  · intro h
    apply Nat.eq_of_testBit_eq
    intro k
    simp only [Nat.testBit_mod_two_pow, Nat.testBit_div_two_pow]
    by_cases hk : k < len
    · simpa [hk, BitVec.getLsbD] using h (k + lo) (by omega) (by omega)
    · simp [hk]

/-- A word matches a row of the opcode map when each block of bits in the row's mask is the row's pattern there. The
blocks are given as pairs of a lowest bit and a length. -/
theorem and_mask_eq_iff (w m p : Word) (blocks : List (Nat × Nat))
    (hm : ∀ j < 32, m.getLsbD j = blocks.any fun b => decide (b.1 ≤ j) && decide (j < b.1 + b.2))
    (hb : ∀ b ∈ blocks, b.1 + b.2 ≤ 32) (hp : p &&& m = p) :
    w &&& m = p ↔ ∀ b ∈ blocks, w.toNat / 2 ^ b.1 % 2 ^ b.2 = p.toNat / 2 ^ b.1 % 2 ^ b.2 := by
  constructor
  · intro h b hbm
    rw [block_eq_iff]
    intro j hlo hhi
    have hj : j < 32 := by have := hb b hbm; omega
    have hmj : m.getLsbD j = true := by
      rw [hm j hj, List.any_eq_true]
      exact ⟨b, hbm, by simp [hlo, hhi]⟩
    have := congrArg (fun v => v.getLsbD j) h
    simpa [hmj] using this
  · intro h
    apply BitVec.eq_of_getLsbD_eq
    intro j hj
    rw [BitVec.getLsbD_and]
    have hpj := congrArg (fun v => v.getLsbD j) hp
    simp only [BitVec.getLsbD_and] at hpj
    cases hmj : m.getLsbD j with
    | false => rw [hmj] at hpj; simpa using hpj
    | true =>
      rw [hm j hj, List.any_eq_true] at hmj
      obtain ⟨b, hbm, hbj⟩ := hmj
      simp only [Bool.and_eq_true, decide_eq_true_eq] at hbj
      rw [Bool.and_true]
      exact (block_eq_iff w p b.1 b.2).1 (h b hbm) j hbj.1 hbj.2

/-- What `ifReservedZero` can answer. -/
theorem ifReservedZero_eq_ok (b : Bool) (i j : Instr) : ifReservedZero b i = .ok j ↔ b = true ∧ i = j := by
  cases b <;> simp [ifReservedZero]

/-- The opcode field of a word, from the word as a number. -/
theorem opcode_of (w : Word) (op : Nat) (hw : w.toNat / 2 ^ 28 = op) : w.extractLsb' 28 4 = BitVec.ofNat 4 op := by
  have := w.isLt
  apply BitVec.eq_of_toNat_eq
  rw [Machine.extractLsb'_toNat_div, hw]
  simp

end Sys2Proof
end

