-- ==== Sys2Proof/Laws/State.lean ====
section
/-! SUPPORT. One lemma per field per update of the state. -/

namespace Sys2Proof.Machine

@[simp] theorem State.setRsp_rsp (s : State) (r : Response) : (s.setRsp r).rsp = r := rfl
@[simp] theorem State.setRsp_inputs (s : State) (r : Response) : (s.setRsp r).inputs = s.inputs := rfl
@[simp] theorem State.setInputs_rsp (s : State) (inps : List Input) : (s.setInputs inps).rsp = s.rsp := rfl
@[simp] theorem State.setInputs_inputs (s : State) (inps : List Input) : (s.setInputs inps).inputs = inps := rfl
@[simp] theorem State.setRsp_setRsp (s : State) (r r' : Response) : (s.setRsp r).setRsp r' = s.setRsp r' := rfl
@[simp] theorem State.setInputs_setInputs (s : State) (a b : List Input) : (s.setInputs a).setInputs b = s.setInputs b :=
  rfl
@[simp] theorem State.setInputs_self (s : State) : s.setInputs s.inputs = s := rfl
@[simp] theorem State.setRsp_self (s : State) : s.setRsp s.rsp = s := rfl
@[simp] theorem State.powerUp_inputs (inps : List Input) : (State.powerUp inps).inputs = inps := rfl

theorem State.setRsp_setInputs (s : State) (r : Response) (inps : List Input) :
    (s.setInputs inps).setRsp r = (s.setRsp r).setInputs inps := rfl

@[simp] theorem okResponse_valid (d : Word) (set : CellSet) : (okResponse d set).valid = true := rfl
@[simp] theorem okResponse_status (d : Word) (set : CellSet) : (okResponse d set).status = 0 := rfl
@[simp] theorem okResponse_data (d : Word) (set : CellSet) : (okResponse d set).data = d := rfl
@[simp] theorem okResponse_set (d : Word) (set : CellSet) : (okResponse d set).set = set := rfl
@[simp] theorem errorResponse_valid (c : BitVec 4) : (errorResponse c).valid = true := rfl
@[simp] theorem errorResponse_status (c : BitVec 4) : (errorResponse c).status = c := rfl
@[simp] theorem errorResponse_data (c : BitVec 4) : (errorResponse c).data = 0 := rfl
@[simp] theorem errorResponse_set (c : BitVec 4) : (errorResponse c).set = 0 := rfl

end Sys2Proof.Machine
end

