-- ==== Sys2Proof/Laws/Ops.lean ====
section
/-! SUPPORT. What each shared operation does, said once. -/

namespace Sys2Proof.Machine

/-- A member of a set builder is a cell that meets its test. -/
@[simp] theorem mem_cellsWhere (p : CellIndex → Bool) (i : CellIndex) : i ∈ cellsWhere p ↔ p i = true := by
  simp [cellsWhere]

theorem cellsWhere_nodup (p : CellIndex → Bool) : (cellsWhere p).Nodup :=
  (List.nodup_finRange 529).filter _

theorem filter_finRange_sorted (n : Nat) (p : Fin n → Bool) : ((List.finRange n).filter p).Pairwise (· < ·) :=
  (List.sortedLT_finRange n).pairwise.filter p

/-- The cells of a set builder are listed from the lowest up. -/
theorem cellsWhere_sorted (p : CellIndex → Bool) : (cellsWhere p).Pairwise (· < ·) :=
  filter_finRange_sorted 529 p

/-- A set builder counts the numbers below 529 that meet its test. -/
theorem cellsWhere_length (p : CellIndex → Bool) (q : Nat → Prop) [DecidablePred q] (h : ∀ i : CellIndex, p i = true ↔ q i.val) :
    (cellsWhere p).length = ((Finset.range 529).filter q).card := by
  rw [← List.toFinset_card_of_nodup (cellsWhere_nodup p), ← Finset.card_map Fin.valEmbedding]
  refine congrArg Finset.card (Finset.ext fun n => ?_)
  simp only [Finset.mem_map, List.mem_toFinset, mem_cellsWhere, Finset.mem_filter, Finset.mem_range]
  constructor
  · rintro ⟨i, hi, rfl⟩
    exact ⟨i.isLt, (h i).1 hi⟩
  · rintro ⟨hn, hq⟩
    exact ⟨⟨n, hn⟩, (h ⟨n, hn⟩).2 hq, rfl⟩

/-- Bit `i` of a cell set is 1 exactly when cell `i` is in the list. -/
theorem getLsbD_cellSet (cells : List CellIndex) (n : Nat) :
    (cellSet cells).getLsbD n = decide (∃ i ∈ cells, i.val = n) := by
  induction cells with
  | nil => simp [cellSet]
  | cons c cs ih =>
    have hstep : (cellSet (c :: cs)).getLsbD n = ((cellSet cs).getLsbD n || (BitVec.twoPow 529 c.val).getLsbD n) := by
      simp [cellSet]
    have := c.isLt
    rw [hstep, ih, BitVec.getLsbD_twoPow, Bool.eq_iff_iff]
    simp only [Bool.or_eq_true, Bool.and_eq_true, decide_eq_true_eq, List.mem_cons, exists_eq_or_imp]
    constructor
    · rintro (h | ⟨-, h⟩)
      · exact .inr h
      · exact .inl h
    · rintro (h | h)
      · exact .inr ⟨by omega, h⟩
      · exact .inl h

/-- The set made of a set builder has bit `n` exactly when `n` is a cell that meets the test. -/
theorem getLsbD_cellSet_cellsWhere (p : CellIndex → Bool) (q : Nat → Prop) [DecidablePred q]
    (h : ∀ i : CellIndex, p i = true ↔ q i.val) (n : Nat) :
    (cellSet (cellsWhere p)).getLsbD n = decide (n < 529 ∧ q n) := by
  rw [getLsbD_cellSet, Bool.eq_iff_iff]
  simp only [mem_cellsWhere, decide_eq_true_eq]
  constructor
  · rintro ⟨i, hi, rfl⟩
    exact ⟨i.isLt, (h i).1 hi⟩
  · rintro ⟨hn, hq⟩
    exact ⟨⟨n, hn⟩, (h ⟨n, hn⟩).2 hq, rfl⟩

/-- Collecting cells into a set and counting its bits gives the number of cells. -/
theorem cellCount_cellSet_cellsWhere (p : CellIndex → Bool) : cellCount (cellSet (cellsWhere p)) = (cellsWhere p).length := by
  unfold cellCount
  congr 2
  funext i
  rw [getLsbD_cellSet_cellsWhere p (fun n => ∃ h : n < 529, p ⟨n, h⟩ = true) (fun j => by simp)]
  simp

@[simp] theorem rom_toNat (t : TableId) (i : CellIndex) : (rom t i).toNat = i.val % 21 := by
  simp [rom]; omega

@[simp] theorem cellIndex?_eq_none (i : BitVec 10) : cellIndex? i = none ↔ 528 < i.toNat := by
  unfold cellIndex?; split <;> simp <;> omega

@[simp] theorem cellIndex?_eq_some (i : BitVec 10) (c : CellIndex) : cellIndex? i = some c ↔ c.val = i.toNat := by
  unfold cellIndex?
  split
  · simp [Fin.ext_iff, eq_comm]
  · have := c.isLt
    simp; omega

@[simp] theorem cellAt?_eq_none (r c : BitVec 5) : cellAt? r c = none ↔ 22 < r.toNat ∨ 22 < c.toNat := by
  unfold cellAt?; split <;> simp <;> omega

@[simp] theorem cellAt?_eq_some (r c : BitVec 5) (i : CellIndex) :
    cellAt? r c = some i ↔ r.toNat ≤ 22 ∧ c.toNat ≤ 22 ∧ i.val = r.toNat * 23 + c.toNat := by
  unfold cellAt?
  split <;> rename_i h
  · simp [Fin.ext_iff, eq_comm, h.1, h.2]
  · simp; omega

@[simp] theorem cellRow_toNat (i : CellIndex) : (cellRow i).toNat = i.val / 23 := by
  simp [cellRow]; omega

@[simp] theorem cellCol_toNat (i : CellIndex) : (cellCol i).toNat = i.val % 23 := by
  simp [cellCol]; omega

@[simp] theorem cellBits_toNat (i : CellIndex) : (cellBits i).toNat = i.val := by
  simp [cellBits]; omega

@[simp] theorem reduce_val (p : BitVec 8) : (reduce p).val = p.toNat := rfl

@[simp] theorem fitsPayload_iff (i : CellIndex) : fitsPayload i = true ↔ i.val ≤ 255 := by simp [fitsPayload]

@[simp] theorem cellPayload_toNat (i : CellIndex) : (cellPayload i).toNat = i.val % 256 := by simp [cellPayload]

@[simp] theorem packetNodeType_toNat (p : Packet) : (packetNodeType p).toNat = p.toNat / 2 ^ 10 := by
  have := p.isLt
  rw [packetNodeType, extractLsb'_toNat_div]; omega

@[simp] theorem packetOctave_toNat (p : Packet) : (packetOctave p).toNat = p.toNat / 2 ^ 8 % 4 := by
  rw [packetOctave, extractLsb'_toNat_div]; rfl

@[simp] theorem packetPayload_toNat (p : Packet) : (packetPayload p).toNat = p.toNat % 256 := by
  rw [packetPayload, extractLsb'_toNat_div]; omega

theorem mkPacket_toNat (nt : BitVec 3) (oct : TableId) (pay : BitVec 8) :
    (mkPacket nt oct pay).toNat = nt.toNat * 2 ^ 10 + oct.toNat * 2 ^ 8 + pay.toNat := by
  have := nt.isLt; have := oct.isLt; have := pay.isLt
  simp [mkPacket, concatNat]; omega

@[simp] theorem validPacket_iff (p : Packet) : validPacket p = true ↔ p.toNat / 2 ^ 10 ≤ 5 := by
  simp [validPacket]

theorem mkAddr12_toNat (t : TableId) (i : CellIndex) : (mkAddr12 t i).toNat = t.toNat * 2 ^ 10 + i.val := by
  have := t.isLt; have := i.isLt
  simp [mkAddr12, concatNat]; omega

theorem mkTriplet_toNat (n : GlyphId) (t : TableId) (c : BitVec 10) (g k : GlyphId) :
    (mkTriplet n t c g k).toNat
      = n.toNat * 2 ^ 22 + t.toNat * 2 ^ 20 + c.toNat * 2 ^ 10 + g.toNat * 2 ^ 5 + k.toNat := by
  have := n.isLt; have := t.isLt; have := c.isLt; have := g.isLt; have := k.isLt
  simp [mkTriplet, concatNat]; omega

@[simp] theorem isGlyph_iff (g : GlyphId) : isGlyph g = true ↔ g.toNat ≤ 20 := by simp [isGlyph]
@[simp] theorem isMarker_iff (g : GlyphId) : isMarker g = true ↔ g.toNat ≤ 5 := by simp [isMarker]
@[simp] theorem isChecksumGlyph_iff (g : GlyphId) : isChecksumGlyph g = true ↔ g.toNat ≤ 15 := by
  simp [isChecksumGlyph]

@[simp] theorem marker_toNat (n : BitVec 3) : (marker n).toNat = n.toNat := by
  have := n.isLt
  simp [marker]; omega

@[simp] theorem checksumGlyph_toNat (c : Checksum) : (checksumGlyph c).toNat = c.toNat := by
  have := c.isLt
  simp [checksumGlyph]; omega

@[simp] theorem glyphChecksum_toNat (g : GlyphId) : (glyphChecksum g).toNat = g.toNat % 16 := by
  rw [glyphChecksum, extractLsb'_toNat_div]; omega

/-- `Chk` as a number (43_checksum.md R81, the first form). -/
theorem chk_toNat (i : CellIndex) : (chk i).toNat = ((i.val + 326) % 529) % 16 := by
  simp [chk, rotationStep]

/-- What `lowest` answers for the cells of a set builder: the least of them. -/
theorem lowest_le (p : CellIndex → Bool) (i : CellIndex) (h : p i = true) : lowest (cellsWhere p) ≤ i := by
  have hs := cellsWhere_sorted p
  have hi := (mem_cellsWhere p i).2 h
  revert hs hi
  generalize cellsWhere p = l
  intro hs hi
  cases l with
  | nil => simp at hi
  | cons c cs =>
    rcases List.mem_cons.1 hi with rfl | hm
    · exact le_refl _
    · exact le_of_lt ((List.pairwise_cons.1 hs).1 i hm)

/-- `lowest` of a set builder that holds a cell is one of its cells. -/
theorem lowest_mem (p : CellIndex → Bool) (h : cellsWhere p ≠ []) : p (lowest (cellsWhere p)) = true := by
  rw [← mem_cellsWhere]
  revert h
  generalize cellsWhere p = l
  intro h
  cases l with
  | nil => exact absurd rfl h
  | cons c cs => simp [lowest]

theorem Status.code_injective : Function.Injective Status.code := by
  intro a b h
  cases a <;> cases b <;> first | rfl | exact absurd h (by decide)

/-- A command that returns answers with an `OK` response. -/
@[simp] theorem answer_ret (d : Word) (set : CellSet) (s : State) :
    answer (ret d set) s = .next (s.setRsp (okResponse d set)) := rfl

/-- A command that returns a data word answers with any data word that is the same number. -/
theorem answer_ret_of_toNat {d d' : Word} (set : CellSet) (s : State) (h : d.toNat = d'.toNat) :
    answer (ret d set) s = .next (s.setRsp (okResponse d' set)) := by
  rw [BitVec.eq_of_toNat_eq h, answer_ret]

/-- A command that raises answers with an error response. -/
@[simp] theorem answer_raise (st : Status) (s : State) :
    answer (raise st) s = .next (s.setRsp (errorResponse st.code)) := rfl

/-- Every command is answered, with a result that does not depend on the state: `exec` can do nothing else
(30_encoding.md R34; 10_state.md R14). -/
theorem exec_answers (i : Instr) : ∃ r : Result, ∀ s, exec i s = answer r s := by
  cases i <;> exact ⟨_, fun _ => rfl⟩

@[simp] theorem exec_pack (n o : BitVec 8) (p : BitVec 12) (s : State) :
    exec (.pack n o p) s = answer (packResult n o p) s := rfl
@[simp] theorem exec_unpack (p : Packet) (s : State) : exec (.unpack p) s = answer (unpackResult p) s := rfl
@[simp] theorem exec_lookup (t : TableId) (i : BitVec 10) (s : State) :
    exec (.lookup t i) s = answer (lookupResult t i) s := rfl
@[simp] theorem exec_lookupRc (t : TableId) (r c : BitVec 5) (s : State) :
    exec (.lookupRc t r c) s = answer (lookupRcResult t r c) s := rfl
@[simp] theorem exec_rlookup (t : TableId) (g : GlyphId) (s : State) :
    exec (.rlookup t g) s = answer (rlookupResult t g) s := rfl
@[simp] theorem exec_toAddr (p : Packet) (s : State) : exec (.toAddr p) s = answer (toAddrResult p) s := rfl
@[simp] theorem exec_fromAddr (n : BitVec 8) (t : TableId) (i : BitVec 10) (s : State) :
    exec (.fromAddr n t i) s = answer (fromAddrResult n t i) s := rfl
@[simp] theorem exec_chkCompute (t : TableId) (i : BitVec 10) (s : State) :
    exec (.chkCompute t i) s = answer (chkComputeResult t i) s := rfl
@[simp] theorem exec_chkVerify (c : Checksum) (t : TableId) (i : BitVec 10) (s : State) :
    exec (.chkVerify c t i) s = answer (chkVerifyResult c t i) s := rfl
@[simp] theorem exec_encode (p : Packet) (s : State) : exec (.encode p) s = answer (encodeResult p) s := rfl
@[simp] theorem exec_decode (n : GlyphId) (t : TableId) (i : BitVec 10) (g c : GlyphId) (s : State) :
    exec (.decode n t i g c) s = answer (decodeResult n t i g c) s := rfl
@[simp] theorem exec_resolve (t : TableId) (g c : GlyphId) (s : State) :
    exec (.resolve t g c) s = answer (resolveResult t g c) s := rfl

/-- A cell whose index a field spells (20_memory.md R25). -/
theorem cellIndex?_of_le {i : BitVec 10} (h : i.toNat ≤ 528) : cellIndex? i = some ⟨i.toNat, by omega⟩ := by simp

theorem cellIndex?_of_lt {i : BitVec 10} (h : 528 < i.toNat) : cellIndex? i = none := by simp [h]

/-- Two answers are equal only when their data and sets are. -/
theorem ret_answer_inj {d d' : Word} {set set' : CellSet} {s : State}
    (h : answer (ret d set) s = .next (s.setRsp (okResponse d' set'))) : d = d' ∧ set = set' := by
  simp only [answer_ret, Host.Outcome.next.injEq] at h
  have hr : okResponse d set = okResponse d' set' := congrArg State.rsp h
  simpa [okResponse] using hr

/-- A raised error is not an `OK` answer. -/
theorem raise_answer_ne_ok {st : Status} (hst : st ≠ .ok) {d : Word} {set : CellSet} {s : State} :
    answer (raise st) s ≠ .next (s.setRsp (okResponse d set)) := by
  intro h
  simp only [answer_raise, Host.Outcome.next.injEq] at h
  have hr : (errorResponse st.code).status = (okResponse d set).status := congrArg (fun t => t.rsp.status) h
  exact hst (Status.code_injective hr)

end Sys2Proof.Machine
end

