-- ==== Sys2Proof/Laws/Clock.lean ====
section
/-! SUPPORT. What an edge and a step can do, said once. -/

namespace Sys2Proof.Machine

/-- The result of a command word: `Exec(cmd)` of 30_encoding.md R34 as a function of the word alone. -/
theorem command_answers (w : Word) : ∃ r : Result, ∀ s, command w s = answer r s := by
  unfold command
  cases decodeCmd w with
  | error e => exact ⟨_, fun _ => rfl⟩
  | ok i => exact exec_answers i

theorem command_of_decode {w : Word} {i : Instr} (h : decodeCmd w = .ok i) (s : State) : command w s = exec i s := by
  rw [command, h]

theorem command_of_error {w : Word} {e : DecodeError} (h : decodeCmd w = .error e) (s : State) :
    command w s = .next (s.setRsp (errorResponse 7)) := by
  rw [command, h]; rfl

@[simp] theorem edge_reset (s : State) (v : Bool) (w : Word) : edge ⟨true, v, w⟩ s = .next (s.setRsp Response.zero) := rfl

@[simp] theorem edge_idle (s : State) (w : Word) : edge ⟨false, false, w⟩ s = .next (s.setRsp Response.zero) := rfl

@[simp] theorem edge_command (w : Word) (s : State) : edge (Input.command w) s = command w s := rfl

/-- Every edge is taken, and writes the response registers with a value that depends on the inputs alone. -/
theorem edge_answers (inp : Input) : ∃ r : Response, ∀ s, edge inp s = .next (s.setRsp r) := by
  obtain ⟨rst, v, w⟩ := inp
  cases rst with
  | true => exact ⟨_, fun s => edge_reset s v w⟩
  | false =>
    cases v with
    | false => exact ⟨_, fun s => edge_idle s w⟩
    | true =>
      obtain ⟨r, hr⟩ := command_answers w
      exact ⟨_, fun s => hr s⟩

@[simp] theorem step_cons (s : State) (inp : Input) (rest : List Input) :
    step (s.setInputs (inp :: rest)) = edge inp (s.setInputs rest) := rfl

theorem step_of_inputs {s : State} {inp : Input} {rest : List Input} (h : s.inputs = inp :: rest) :
    step s = edge inp (s.setInputs rest) := by
  rw [step, h]

/-- A step of a state with no input left is the fault. -/
theorem step_nil {s : State} (h : s.inputs = []) : step s = .fault .noInput := by
  rw [step, h]

/-- One edge of a trace: its response depends on the input alone, and the rest of the trace goes on from there. -/
theorem trace_cons (inp : Input) : ∃ r : Response, (∀ s, edge inp s = .next (s.setRsp r)) ∧
    ∀ rest s, trace (inp :: rest) s = r :: trace rest (s.setRsp r) := by
  obtain ⟨r, hr⟩ := edge_answers inp
  exact ⟨r, hr, fun rest s => by simp [trace, hr]⟩

/-- A trace depends on the inputs alone (20_memory.md R26). -/
theorem trace_state_irrelevant (inps : List Input) (s t : State) : trace inps s = trace inps t := by
  induction inps generalizing s t with
  | nil => rfl
  | cons inp rest ih =>
    obtain ⟨r, -, h⟩ := trace_cons inp
    rw [h, h, ih]

theorem trace_length (inps : List Input) (s : State) : (trace inps s).length = inps.length := by
  induction inps generalizing s with
  | nil => rfl
  | cons inp rest ih =>
    obtain ⟨r, -, h⟩ := trace_cons inp
    simp [h, ih]

theorem present_eq_command (w : Word) (s : State) : present w s = command w s := rfl

end Sys2Proof.Machine
end

