-- ==== Sys2Proof/Laws/Config.lean ====
section
/-! SUPPORT. What the spec says of its parameters (93_implementation_defined.md V3). -/

namespace Sys2Proof.Config

/-- `ALPHABET` is "a list of 21 distinct symbols" (93_implementation_defined.md V3; 00_scope.md R3, `N_GLYPHS`). -/
theorem alphabet_lists_distinct_symbols :
    (List.ofFn alphabet).length = 21 ∧ (List.ofFn alphabet).Nodup :=
  ⟨List.length_ofFn, List.nodup_ofFn.mpr alphabet.injective⟩

/-- No choice of 21 distinct symbols is ruled out: each is what some numbering gives. -/
theorem every_alphabet_has_a_numbering (a : Fin 21 ↪ Nat) :
    ∃ numbering : Equiv.Perm Nat, ∀ g : Fin 21, numbering g.val = a g := by
  have small : Cardinal.mk (Set.Iio 21 : Set Nat) < Cardinal.mk Nat := by
    rw [Cardinal.mk_nat]
    exact Cardinal.lt_aleph0_of_finite _
  obtain ⟨numbering, h⟩ := Cardinal.extend_function_of_lt
    ⟨fun n : Set.Iio 21 => a ⟨n.val, n.property⟩,
      fun m n h => Subtype.ext (Fin.mk.inj (a.injective h))⟩
    small ⟨Equiv.refl Nat⟩
  exact ⟨numbering, fun g => h ⟨g.val, g.isLt⟩⟩

end Sys2Proof.Config
end

