-- ==== Sys2Proof/Laws/Framing.lean ====
section
/-! SUPPORT. The reference host's bit strings, bit by bit, and what asking CORE answers. -/

namespace Sys2Proof.Machine

theorem bitsValue_concat (bits : List Bool) (b : Bool) : bitsValue (bits ++ [b]) = 2 * bitsValue bits + b.toNat := by
  simp [bitsValue]

/-- Bit `j` of the number a bit list stands for, counted from the end of the list. -/
theorem testBit_bitsValue (bits : List Bool) (j : Nat) : (bitsValue bits).testBit j = bits.reverse.getD j false := by
  induction bits using List.reverseRecOn generalizing j with
  | nil => simp [bitsValue]
  | append_singleton bits b ih =>
    rw [bitsValue_concat, List.reverse_append, List.reverse_singleton, List.singleton_append]
    cases j with
    | zero => cases b <;> simp [Nat.testBit_zero]
    | succ j =>
      have h : (2 * bitsValue bits + b.toNat) / 2 = bitsValue bits := by cases b <;> simp; omega
      rw [Nat.testBit_succ, h, ih, List.getD_cons_succ]

/-- A bit list of a given length, read most significant first, as a bit vector. -/
theorem getLsbD_bitsValue_map (w : Nat) (f : Nat → Bool) (j : Nat) (hj : j < w) :
    (BitVec.ofNat w (bitsValue ((List.range w).map f))).getLsbD (w - 1 - j) = f j := by
  have hlt : w - 1 - j < w := by omega
  have hj' : w - 1 - (w - 1 - j) = j := by omega
  rw [BitVec.getLsbD_ofNat, testBit_bitsValue]
  simp [List.getD_eq_getElem?_getD, hlt, hj']

/-- Unit `m` of a bit string, bit by bit (45_host_framing.md R102). -/
theorem getLsbD_splitUnit (bits : List Bool) (m j : Nat) (hj : j < 13) :
    (splitUnit bits m).getLsbD (12 - j) = bits.getD (13 * m + j) false :=
  getLsbD_bitsValue_map 13 (fun j => bits.getD (13 * m + j) false) j hj

/-- Byte `k` of a bit string, bit by bit (45_host_framing.md R106). -/
theorem getLsbD_byteAt (bits : List Bool) (k j : Nat) (hj : j < 8) :
    (byteAt bits k).getLsbD (7 - j) = bits.getD (8 * k + j) false :=
  getLsbD_bitsValue_map 8 (fun j => bits.getD (8 * k + j) false) j hj

/-- Bit `n` of a string made of pieces of one length `c`. -/
theorem getD_flatMap_of_length {α : Type} (f : α → List Bool) (c : Nat) (hc : 0 < c) (hf : ∀ a, (f a).length = c)
    (l : List α) (a₀ : α) (n : Nat) (hn : n < c * l.length) :
    (l.flatMap f).getD n false = (f (l.getD (n / c) a₀)).getD (n % c) false := by
  induction l generalizing n with
  | nil => simp at hn
  | cons a l ih =>
    rw [List.flatMap_cons]
    by_cases h : n < c
    · rw [List.getD_append _ _ _ _ (by rw [hf]; exact h), Nat.div_eq_of_lt h, Nat.mod_eq_of_lt h, List.getD_cons_zero]
    · have hcn : c ≤ n := by omega
      have hn' : n - c < c * l.length := by
        rw [List.length_cons, Nat.mul_succ] at hn; omega
      have hdiv : n / c = (n - c) / c + 1 := by
        rw [← Nat.add_div_right _ hc, Nat.sub_add_cancel hcn]
      rw [List.getD_append_right _ _ _ _ (by rw [hf]; exact hcn), hf, ih _ hn', hdiv, List.getD_cons_succ,
        ← Nat.mod_eq_sub_mod hcn]

theorem length_flatMap_of_length {α : Type} (f : α → List Bool) (c : Nat) (hf : ∀ a, (f a).length = c) (l : List α) :
    (l.flatMap f).length = c * l.length := by
  induction l with
  | nil => rfl
  | cons a l ih => rw [List.flatMap_cons, List.length_append, hf, ih, List.length_cons, Nat.mul_succ, Nat.add_comm]

@[simp] theorem byteBits_length (b : BitVec 8) : (byteBits b).length = 8 := by simp [byteBits]

@[simp] theorem packetBits_length (p : Packet) : (packetBits p).length = 13 := by simp [packetBits]

theorem byteBits_getD (b : BitVec 8) (j : Nat) (hj : j < 8) : (byteBits b).getD j false = b.getLsbD (7 - j) := by
  simp [byteBits, List.getD_eq_getElem?_getD, hj]

theorem packetBits_getD (p : Packet) (j : Nat) (hj : j < 13) : (packetBits p).getD j false = p.getLsbD (12 - j) := by
  simp [packetBits, List.getD_eq_getElem?_getD, hj]

/-- The bit string of a buffer has eight bits a byte (45_host_framing.md R101). -/
@[simp] theorem bufferBits_length (bytes : List (BitVec 8)) : (bufferBits bytes).length = 8 * bytes.length :=
  length_flatMap_of_length byteBits 8 byteBits_length bytes

/-- Bit `8k + j` of a buffer is bit `7 - j` of byte `k` (45_host_framing.md R101). -/
theorem bufferBits_getD (bytes : List (BitVec 8)) (n : Nat) (hn : n < 8 * bytes.length) :
    (bufferBits bytes).getD n false = (bytes.getD (n / 8) 0).getLsbD (7 - n % 8) := by
  rw [bufferBits, getD_flatMap_of_length byteBits 8 (by omega) byteBits_length bytes 0 n hn,
    byteBits_getD _ _ (by omega)]

/-- Asking CORE a word always gives CORE with its response registers written, by a value that depends on the word alone
(10_state.md R14; 20_memory.md R26). -/
theorem ask_answers (w : Word) : ∃ r : Result, (∀ s, command w s = answer r s) ∧
    ∀ s, ask w s = .ok (s.setRsp ⟨true, r.status.code, r.data, r.set⟩) := by
  obtain ⟨r, hr⟩ := command_answers w
  exact ⟨r, hr, fun s => by simp [ask, hr, answer]⟩

end Sys2Proof.Machine
end

