-- ==== Sys2Proof/Laws/PerInstr.lean ====
section
/-! SUPPORT. The family MatchesItsRow: the word of a command matches that command's row of the opcode map, so the
opcode is the row's and the reserved bits are 0 (30_encoding.md R34, R46). -/

namespace Sys2Proof.Laws.MatchesItsRow

open Sys2Proof.Machine

/-- The word of the command, masked by its row's mask, is the row's pattern. -/
def Statement (i : Instr) : Prop :=
  ∃ r ∈ opcodeMap, r.mnemonic = i.mnemonic ∧ encodeCmd i &&& r.mask = r.pattern

theorem pack (nt8 : BitVec 8) (oct8 : BitVec 8) (pay12 : BitVec 12) : Statement (.pack nt8 oct8 pay12) := by
  refine ⟨⟨_, 0x10000000, 0xF0000000⟩, by simp [opcodeMap], rfl, ?_⟩
  have := nt8.isLt; have := oct8.isLt; have := pay12.isLt
  exact (and_mask_eq_iff _ _ _ [(28, 4)] (by decide) (by decide) (by decide)).2 (by simp [encodeCmd, concatNat]; omega)

theorem unpack (pkt : BitVec 13) : Statement (.unpack pkt) := by
  refine ⟨⟨_, 0x20000000, 0xFFFFE000⟩, by simp [opcodeMap], rfl, ?_⟩
  have := pkt.isLt
  exact (and_mask_eq_iff _ _ _ [(13, 19)] (by decide) (by decide) (by decide)).2 (by simp [encodeCmd, concatNat]; omega)

theorem lookup (table : BitVec 2) (cell : BitVec 10) : Statement (.lookup table cell) := by
  refine ⟨⟨_, 0x30000000, 0xFFFFF000⟩, by simp [opcodeMap], rfl, ?_⟩
  have := table.isLt; have := cell.isLt
  exact (and_mask_eq_iff _ _ _ [(12, 20)] (by decide) (by decide) (by decide)).2 (by simp [encodeCmd, concatNat]; omega)

theorem lookupRc (table : BitVec 2) (row : BitVec 5) (col : BitVec 5) : Statement (.lookupRc table row col) := by
  refine ⟨⟨_, 0x40000000, 0xFFFFF000⟩, by simp [opcodeMap], rfl, ?_⟩
  have := table.isLt; have := row.isLt; have := col.isLt
  exact (and_mask_eq_iff _ _ _ [(12, 20)] (by decide) (by decide) (by decide)).2 (by simp [encodeCmd, concatNat]; omega)

theorem rlookup (table : BitVec 2) (glyph : BitVec 5) : Statement (.rlookup table glyph) := by
  refine ⟨⟨_, 0x50000000, 0xFFFFF01F⟩, by simp [opcodeMap], rfl, ?_⟩
  have := table.isLt; have := glyph.isLt
  exact (and_mask_eq_iff _ _ _ [(0, 5), (12, 20)] (by decide) (by decide) (by decide)).2 (by simp [encodeCmd, concatNat]; omega)

theorem toAddr (pkt : BitVec 13) : Statement (.toAddr pkt) := by
  refine ⟨⟨_, 0x60000000, 0xFFFFE000⟩, by simp [opcodeMap], rfl, ?_⟩
  have := pkt.isLt
  exact (and_mask_eq_iff _ _ _ [(13, 19)] (by decide) (by decide) (by decide)).2 (by simp [encodeCmd, concatNat]; omega)

theorem fromAddr (nt8 : BitVec 8) (table : BitVec 2) (cell : BitVec 10) : Statement (.fromAddr nt8 table cell) := by
  refine ⟨⟨_, 0x70000000, 0xF00FF000⟩, by simp [opcodeMap], rfl, ?_⟩
  have := nt8.isLt; have := table.isLt; have := cell.isLt
  exact (and_mask_eq_iff _ _ _ [(12, 8), (28, 4)] (by decide) (by decide) (by decide)).2 (by simp [encodeCmd, concatNat]; omega)

theorem chkCompute (table : BitVec 2) (cell : BitVec 10) : Statement (.chkCompute table cell) := by
  refine ⟨⟨_, 0x80000000, 0xFFFFF000⟩, by simp [opcodeMap], rfl, ?_⟩
  have := table.isLt; have := cell.isLt
  exact (and_mask_eq_iff _ _ _ [(12, 20)] (by decide) (by decide) (by decide)).2 (by simp [encodeCmd, concatNat]; omega)

theorem chkVerify (chk : BitVec 4) (table : BitVec 2) (cell : BitVec 10) : Statement (.chkVerify chk table cell) := by
  refine ⟨⟨_, 0x90000000, 0xFFFF0000⟩, by simp [opcodeMap], rfl, ?_⟩
  have := chk.isLt; have := table.isLt; have := cell.isLt
  exact (and_mask_eq_iff _ _ _ [(16, 16)] (by decide) (by decide) (by decide)).2 (by simp [encodeCmd, concatNat]; omega)

theorem encode (pkt : BitVec 13) : Statement (.encode pkt) := by
  refine ⟨⟨_, 0xA0000000, 0xFFFFE000⟩, by simp [opcodeMap], rfl, ?_⟩
  have := pkt.isLt
  exact (and_mask_eq_iff _ _ _ [(13, 19)] (by decide) (by decide) (by decide)).2 (by simp [encodeCmd, concatNat]; omega)

theorem decode (ntg : BitVec 5) (table : BitVec 2) (cell : BitVec 10) (glyph : BitVec 5) (chkg : BitVec 5) : Statement (.decode ntg table cell glyph chkg) := by
  refine ⟨⟨_, 0xB0000000, 0xF8000000⟩, by simp [opcodeMap], rfl, ?_⟩
  have := ntg.isLt; have := table.isLt; have := cell.isLt; have := glyph.isLt; have := chkg.isLt
  exact (and_mask_eq_iff _ _ _ [(27, 5)] (by decide) (by decide) (by decide)).2 (by simp [encodeCmd, concatNat]; omega)

theorem resolve (table : BitVec 2) (glyph : BitVec 5) (chkg : BitVec 5) : Statement (.resolve table glyph chkg) := by
  refine ⟨⟨_, 0xC0000000, 0xFFFFF000⟩, by simp [opcodeMap], rfl, ?_⟩
  have := table.isLt; have := glyph.isLt; have := chkg.isLt
  exact (and_mask_eq_iff _ _ _ [(12, 20)] (by decide) (by decide) (by decide)).2 (by simp [encodeCmd, concatNat]; omega)

end Sys2Proof.Laws.MatchesItsRow
end

