-- ==== Sys2Proof/Tests/Slice0.lean ====
section
/-! SUPPORT. Small tests, their expected values taken from the examples and vectors of spec/ (95_test_vectors.md), and
the witnesses of the obligations' hypotheses, at the values where clauses meet. -/

namespace Sys2Proof.Tests

open Sys2Proof.Machine

/-- A state no register of which is as reset leaves it, with one input waiting. -/
def dirty : State :=
  { rsp := { valid := true, status := 9, data := 0xFFFFFFFF, set := 5 }, inputs := [⟨false, false, 7⟩] }

/-- The response registers of a next state. -/
def rspOf : Host.Outcome State Fault Refusal → Option Response
  | .next t => some t.rsp
  | .fault _ => none
  | .refused _ => none

/-- The set of the cells listed. -/
def setOf (cells : List Nat) : CellSet :=
  cells.foldr (fun i acc => acc ||| BitVec.twoPow 529 i) 0

/-! ## Decoding and encoding: words written out from the encodings of spec/30_encoding.md, bit field by bit field -/

-- R37: op 0001, nt8 00000010, oct8 00000001, pay12 000000001000 (R50, example).
theorem test_decode_pack : decodeCmd 0b00010000001000000001000000001000 = .ok (.pack 2 1 8) := by decide
-- R38: op 0010, reserved 15 zeros, pkt 0100100001000 (R51, example).
theorem test_decode_unpack : decodeCmd 0b00100000000000000000100100001000 = .ok (.unpack 0x0908) := by decide
-- R39: op 0011, reserved 16 zeros, table 01, cell 0000110001 (R62, example).
theorem test_decode_lookup : decodeCmd 0b00110000000000000000010000110001 = .ok (.lookup 1 49) := by decide
-- R42: op 0100, reserved 16 zeros, table 10, row 01011, col 00010 (R64, example).
theorem test_decode_lookupRc : decodeCmd 0b01000000000000000000100101100010 = .ok (.lookupRc 2 11 2) := by decide
-- R43: op 0101, reserved 16 zeros, table 10, glyph 00100, reserved 00000 (R65, example).
theorem test_decode_rlookup : decodeCmd 0b01010000000000000000100010000000 = .ok (.rlookup 2 4) := by decide
-- R38: op 0110, reserved 15 zeros, pkt 0100100001000 (R71, example).
theorem test_decode_toAddr : decodeCmd 0b01100000000000000000100100001000 = .ok (.toAddr 0x0908) := by decide
-- R41: op 0111, nt8 00000010, reserved 00000000, table 01, cell 0000001000 (R72, example).
theorem test_decode_fromAddr : decodeCmd 0b01110000001000000000010000001000 = .ok (.fromAddr 2 1 8) := by decide
-- R39: op 1000, reserved 16 zeros, table 01, cell 0000001000 (R82, example).
theorem test_decode_chkCompute : decodeCmd 0b10000000000000000000010000001000 = .ok (.chkCompute 1 8) := by decide
-- R40: op 1001, reserved 12 zeros, chk 1110, table 01, cell 0000001000 (R83, example).
theorem test_decode_chkVerify : decodeCmd 0b10010000000000001110010000001000 = .ok (.chkVerify 14 1 8) := by decide
-- R38: op 1010, reserved 15 zeros, pkt 0100100001000 (R92, example).
theorem test_decode_encode : decodeCmd 0b10100000000000000000100100001000 = .ok (.encode 0x0908) := by decide
-- R45: op 1011, reserved 0, ntg 00010, table 01, cell 0000001000, glyph 01000, chkg 01110 (R93, example).
theorem test_decode_decode : decodeCmd 0b10110000100100000010000100001110 = .ok (.decode 2 1 8 8 14) := by decide
-- R44: op 1100, reserved 16 zeros, table 01, glyph 01000, chkg 01110 (R94, example).
theorem test_decode_resolve : decodeCmd 0b11000000000000000000010100001110 = .ok (.resolve 1 8 14) := by decide
-- 95_test_vectors.md 2.13.
theorem test_decode_illegal_opcodes :
    decodeCmd 0x00000000 = .error .unassignedOpcode ∧ decodeCmd 0x0FFFFFFF = .error .unassignedOpcode ∧
    decodeCmd 0xD0000000 = .error .unassignedOpcode ∧ decodeCmd 0xE0000000 = .error .unassignedOpcode ∧
    decodeCmd 0xFFFFFFFF = .error .unassignedOpcode := by decide
-- 95_test_vectors.md 2.13: one reserved bit of each format that has one.
theorem test_decode_reserved_bits :
    decodeCmd 0x20002000 = .error .reservedBitSet ∧ decodeCmd 0x30001000 = .error .reservedBitSet ∧
    decodeCmd 0x40001000 = .error .reservedBitSet ∧ decodeCmd 0x50000001 = .error .reservedBitSet ∧
    decodeCmd 0x68000000 = .error .reservedBitSet ∧ decodeCmd 0x70080000 = .error .reservedBitSet ∧
    decodeCmd 0x80001000 = .error .reservedBitSet ∧ decodeCmd 0x90010000 = .error .reservedBitSet ∧
    decodeCmd 0xA0002908 = .error .reservedBitSet ∧ decodeCmd 0xB890210E = .error .reservedBitSet ∧
    decodeCmd 0xC0001000 = .error .reservedBitSet := by decide
theorem test_encode_words :
    encodeCmd (.pack 255 255 4095) = 0x1FFFFFFF ∧ encodeCmd (.fromAddr 5 1 322) = 0x70500542 ∧
    encodeCmd (.decode 31 3 1023 31 31) = 0xB7FFFFFF ∧ encodeCmd (.resolve 3 20 3) = 0xC0000E83 := by decide
theorem test_decodeTableWord :
    decodeTableWord 32 0x10600000 = some (.pack 6 0 0) ∧ decodeTableWord 32 0 = none ∧
    decodeTableWord 33 0x10600000 = none := by decide
-- No two rows of the opcode map overlap: some bit is fixed differently (30_encoding.md R34).
theorem test_opcodeMap_rows_disjoint :
    opcodeMap.Pairwise fun r r' => (r.pattern ^^^ r'.pattern) &&& r.mask &&& r'.mask ≠ 0 := by decide

/-! ## Well-formedness of assembler lines: an ill-formed line for each check -/

theorem test_wellFormed_refuses :
    AsmLine.wellFormed (.pack 256 0 0) = false ∧ AsmLine.wellFormed (.pack 0 256 0) = false ∧
    AsmLine.wellFormed (.pack 0 0 4096) = false ∧ AsmLine.wellFormed (.unpack 8192) = false ∧
    AsmLine.wellFormed (.lookup 4 0) = false ∧ AsmLine.wellFormed (.lookup 0 1024) = false ∧
    AsmLine.wellFormed (.lookupRc 4 0 0) = false ∧ AsmLine.wellFormed (.lookupRc 0 32 0) = false ∧
    AsmLine.wellFormed (.lookupRc 0 0 32) = false ∧ AsmLine.wellFormed (.rlookup 4 0) = false ∧
    AsmLine.wellFormed (.rlookup 0 32) = false ∧ AsmLine.wellFormed (.toAddr 8192) = false ∧
    AsmLine.wellFormed (.fromAddr 256 0 0) = false ∧ AsmLine.wellFormed (.fromAddr 0 4 0) = false ∧
    AsmLine.wellFormed (.fromAddr 0 0 1024) = false ∧ AsmLine.wellFormed (.chkCompute 4 0) = false ∧
    AsmLine.wellFormed (.chkCompute 0 1024) = false ∧ AsmLine.wellFormed (.chkVerify 16 0 0) = false ∧
    AsmLine.wellFormed (.chkVerify 0 4 0) = false ∧ AsmLine.wellFormed (.chkVerify 0 0 1024) = false ∧
    AsmLine.wellFormed (.encode 8192) = false ∧ AsmLine.wellFormed (.decode 32 0 0 0 0) = false ∧
    AsmLine.wellFormed (.decode 0 4 0 0 0) = false ∧ AsmLine.wellFormed (.decode 0 0 1024 0 0) = false ∧
    AsmLine.wellFormed (.decode 0 0 0 32 0) = false ∧ AsmLine.wellFormed (.decode 0 0 0 0 32) = false ∧
    AsmLine.wellFormed (.resolve 4 0 0) = false ∧ AsmLine.wellFormed (.resolve 0 32 0) = false ∧
    AsmLine.wellFormed (.resolve 0 0 32) = false ∧ AsmLine.wellFormed (.word 4294967296) = false := by decide

-- Witnesses of AssemblerAgreesWithTheEncoder, with words of 95_test_vectors.md.
theorem witness_AssemblerAgreesWithTheEncoder :
    AsmLine.wellFormed (.pack 256 0 0) = false ∧ AsmLine.wellFormed (.pack 255 255 4095) = true ∧
    asmInstr (.pack 255 255 4095) = some (.pack 255 255 4095) ∧
    assemble (.pack 255 255 4095) = some ⟨false, true, 0x1FFFFFFF⟩ ∧
    assemble (.word 4294967295) = some ⟨false, true, 0xFFFFFFFF⟩ := by decide
theorem test_assembleAll :
    assembleAll [.reset, .encode 0x0908, .idle] = some [⟨true, false, 0⟩, ⟨false, true, 0xA0000908⟩, ⟨false, false, 0⟩] ∧
    assembleAll [.encode 8192] = none := by decide

/-! ## The step -/

theorem witness_StepRunsTheDecodedCommand :
    decodeCmd 0xA0000908 = .ok (.encode 0x0908) ∧
    step (dirty.setInputs [Input.command 0xA0000908, ⟨true, false, 0⟩])
      = .next ⟨okResponse 0x0090210E 0, [⟨true, false, 0⟩]⟩ := ⟨by decide, rfl⟩
theorem witness_CommandWordIsReadInTheFixedOrder :
    ((0xD0000000 : Word).toNat / 2 ^ 28 ∈ [0x0, 0xD, 0xE, 0xF] ∧
      present 0xD0000000 dirty = .next (dirty.setRsp (errorResponse 7))) ∧
    ((⟨"UNPACK", 0x20000000, 0xFFFFE000⟩ : OpcodeRow) ∈ opcodeMap ∧ (0x20002000 : Word).toNat / 2 ^ 28 = 2 ∧
      (0x20002000 : Word) &&& 0xFFFFE000 ≠ 0x20000000 ∧
      present 0x20002000 dirty = .next (dirty.setRsp (errorResponse 7))) ∧
    ((0x20001FFF : Word) &&& 0xFFFFE000 = 0x20000000 ∧
      present 0x20001FFF dirty = .next (dirty.setRsp (okResponse 0x007030FF 0))) :=
  ⟨⟨by decide, rfl⟩, ⟨by decide, by decide, by decide, rfl⟩, by decide, rfl⟩
-- 95_test_vectors.md P4: no reset at the start, a discarded command, a response lost to a reset, an idle edge.
theorem test_trace_of_program_P4 :
    trace [Input.command 0x00000000, Input.command 0x10600000, ⟨true, true, 0xA0000908⟩, Input.command 0x30000211,
        Input.command 0xA0000908, ⟨true, false, 0⟩, ⟨false, false, 0⟩, Input.command 0xA0002908] dirty
      = [errorResponse 7, errorResponse 1, Response.zero, errorResponse 2, okResponse 0x0090210E 0, Response.zero,
         Response.zero, errorResponse 7] := by decide +kernel
theorem witness_ResetEdgesClearAndHold :
    (∀ inp ∈ [(⟨true, true, 0xA0000908⟩ : Input), ⟨true, false, 0⟩], inp.rst = true) ∧
    trace [⟨true, true, 0xA0000908⟩, ⟨true, false, 0⟩] dirty = [⟨false, 0, 0, 0⟩, ⟨false, 0, 0, 0⟩] :=
  ⟨by decide, rfl⟩
theorem witness_StepStopsOnlyWithoutInput :
    dirty.inputs = ⟨false, false, 7⟩ :: [] ∧ step dirty = .next State.reset ∧
    State.reset.inputs = [] ∧ step State.reset = .fault .noInput := ⟨rfl, rfl, rfl, rfl⟩
theorem witness_EveryStepLeavesASoundResponse : ∃ t, step dirty = .next t := ⟨_, rfl⟩
theorem test_withFetchWord :
    step (State.reset.withFetchWord 32 0x10201008) = .next ⟨okResponse 0x908 0, []⟩ := rfl
theorem witness_OnlyTheListedCommandsGiveAStatus :
    rspOf (exec (.pack 6 0 0) dirty) = some (errorResponse 1) ∧
    rspOf (exec (.lookup 0 529) dirty) = some (errorResponse 2) ∧
    rspOf (exec (.decode 2 1 8 8 15) dirty) = some (errorResponse 3) ∧
    rspOf (exec (.rlookup 0 21) dirty) = some (errorResponse 6) := by decide +kernel

/-! ## The commands: witnesses of the result statements, at the values where clauses meet (95_test_vectors.md 2.1 to
2.12) -/

theorem witness_PackResult_ok :
    ((5 : BitVec 8).toNat ≤ 5 ∧ (3 : BitVec 8).toNat ≤ 3 ∧ (255 : BitVec 12).toNat ≤ 255) ∧
    exec (.pack 5 3 255) dirty = .next (dirty.setRsp (okResponse 0x17FF 0)) := ⟨by decide, rfl⟩
theorem witness_PackResult_range :
    5 < (6 : BitVec 8).toNat ∧ exec (.pack 6 0 0) dirty = .next (dirty.setRsp (errorResponse 1)) ∧
    3 < (4 : BitVec 8).toNat ∧ exec (.pack 0 4 0) dirty = .next (dirty.setRsp (errorResponse 1)) ∧
    255 < (256 : BitVec 12).toNat ∧ exec (.pack 5 3 256) dirty = .next (dirty.setRsp (errorResponse 1)) :=
  ⟨by decide, rfl, by decide, rfl, by decide, rfl⟩
theorem test_unpack_is_total :
    exec (.unpack 0x0908) dirty = .next (dirty.setRsp (okResponse 0x00201008 0)) ∧
    exec (.unpack 0x1FFF) dirty = .next (dirty.setRsp (okResponse 0x007030FF 0)) := ⟨rfl, rfl⟩
theorem witness_LookupResult :
    (528 : BitVec 10).toNat ≤ 528 ∧ exec (.lookup 1 528) dirty = .next (dirty.setRsp (okResponse 0x5AC3 0)) ∧
    528 < (529 : BitVec 10).toNat ∧ exec (.lookup 0 529) dirty = .next (dirty.setRsp (errorResponse 2)) :=
  ⟨by decide, rfl, by decide, rfl⟩
theorem test_lookup_middle : exec (.lookup 1 49) dirty = .next (dirty.setRsp (okResponse 0x867 0)) := rfl
theorem witness_LookupRcResult_ok :
    ((22 : BitVec 5).toNat ≤ 22 ∧ (22 : BitVec 5).toNat ≤ 22) ∧
    exec (.lookupRc 1 22 22) dirty = .next (dirty.setRsp (okResponse 0x4203 0)) ∧
    exec (.lookupRc 2 11 2) dirty = .next (dirty.setRsp (okResponse 0x1FE3 0)) := ⟨by decide, rfl, rfl⟩
theorem witness_LookupRcResult_range :
    22 < (23 : BitVec 5).toNat ∧ exec (.lookupRc 0 23 0) dirty = .next (dirty.setRsp (errorResponse 2)) ∧
    exec (.lookupRc 0 0 23) dirty = .next (dirty.setRsp (errorResponse 2)) := ⟨by decide, rfl, rfl⟩
theorem witness_RlookupResult_ok :
    (20 : GlyphId).toNat ≤ 20 ∧
    rspOf (exec (.rlookup 3 20) dirty)
      = some (okResponse 25 (setOf ((List.range 25).map fun n => 20 + 21 * n))) ∧
    rspOf (exec (.rlookup 1 3) dirty)
      = some (okResponse 26 (setOf ((List.range 26).map fun n => 3 + 21 * n))) := by decide +kernel
theorem witness_RlookupResult_no_glyph :
    20 < (21 : GlyphId).toNat ∧ exec (.rlookup 0 21) dirty = .next (dirty.setRsp (errorResponse 6)) :=
  ⟨by decide, rfl⟩
theorem witness_ToAddrResult :
    (0x17FF : Packet).toNat / 2 ^ 10 ≤ 5 ∧
    exec (.toAddr 0x17FF) dirty = .next (dirty.setRsp (okResponse 0xCFF 0)) ∧
    5 < (0x1800 : Packet).toNat / 2 ^ 10 ∧ exec (.toAddr 0x1800) dirty = .next (dirty.setRsp (errorResponse 1)) :=
  ⟨by decide, rfl, by decide, rfl⟩
theorem witness_FromAddrResult_ok :
    ((5 : BitVec 8).toNat ≤ 5 ∧ (255 : BitVec 10).toNat ≤ 255) ∧
    exec (.fromAddr 5 3 255) dirty = .next (dirty.setRsp (okResponse 0x17FF 0)) := ⟨by decide, rfl⟩
theorem witness_FromAddrResult_range :
    528 < (529 : BitVec 10).toNat ∧ exec (.fromAddr 6 0 529) dirty = .next (dirty.setRsp (errorResponse 2)) ∧
    ((528 : BitVec 10).toNat ≤ 528 ∧ (5 < (0 : BitVec 8).toNat ∨ 255 < (528 : BitVec 10).toNat)) ∧
    exec (.fromAddr 0 0 528) dirty = .next (dirty.setRsp (errorResponse 1)) ∧
    exec (.fromAddr 0 0 256) dirty = .next (dirty.setRsp (errorResponse 1)) ∧
    exec (.fromAddr 6 0 0) dirty = .next (dirty.setRsp (errorResponse 1)) :=
  ⟨by decide, rfl, by decide, rfl, rfl, rfl⟩
theorem witness_ChkComputeResult :
    (528 : BitVec 10).toNat ≤ 528 ∧ exec (.chkCompute 0 528) dirty = .next (dirty.setRsp (okResponse 5 0)) ∧
    528 < (529 : BitVec 10).toNat ∧ exec (.chkCompute 0 529) dirty = .next (dirty.setRsp (errorResponse 2)) :=
  ⟨by decide, rfl, by decide, rfl⟩
-- The wrap point: 202 and 203 (witness of ChecksumWrapsAtTwoHundredAndThree).
theorem witness_ChecksumWrapsAtTwoHundredAndThree :
    (202 : BitVec 10).toNat ≤ 202 ∧ exec (.chkCompute 0 202) dirty = .next (dirty.setRsp (okResponse 0 0)) ∧
    (203 ≤ (203 : BitVec 10).toNat ∧ (203 : BitVec 10).toNat ≤ 528) ∧
    exec (.chkCompute 0 203) dirty = .next (dirty.setRsp (okResponse 0 0)) := ⟨by decide, rfl, by decide, rfl⟩
theorem witness_ChkVerifyResult_ok :
    ((528 : BitVec 10).toNat ≤ 528 ∧ (((528 : BitVec 10).toNat + 326) % 529) % 16 = (5 : Checksum).toNat) ∧
    exec (.chkVerify 5 3 528) dirty = .next (dirty.setRsp (okResponse 1 0)) ∧
    ((8 : BitVec 10).toNat ≤ 528 ∧ (((8 : BitVec 10).toNat + 326) % 529) % 16 ≠ (15 : Checksum).toNat) ∧
    exec (.chkVerify 15 1 8) dirty = .next (dirty.setRsp (okResponse 0 0)) := ⟨by decide, rfl, by decide, rfl⟩
theorem witness_ChkVerifyResult_range :
    528 < (529 : BitVec 10).toNat ∧ exec (.chkVerify 0 0 529) dirty = .next (dirty.setRsp (errorResponse 2)) :=
  ⟨by decide, rfl⟩
theorem witness_EncodeResult :
    (0x17FF : Packet).toNat / 2 ^ 10 ≤ 5 ∧
    exec (.encode 0x17FF) dirty = .next (dirty.setRsp (okResponse 0x0173FC64 0)) ∧
    5 < (0x1800 : Packet).toNat / 2 ^ 10 ∧ exec (.encode 0x1800) dirty = .next (dirty.setRsp (errorResponse 1)) :=
  ⟨by decide, rfl, by decide, rfl⟩
theorem witness_DecodeResult_ok :
    ((5 : GlyphId).toNat ≤ 5 ∧ (3 : GlyphId).toNat ≤ 20 ∧ (4 : GlyphId).toNat ≤ 15) ∧
    ((255 : BitVec 10).toNat ≤ 255 ∧ (255 : BitVec 10).toNat % 21 = (3 : GlyphId).toNat ∧
      (((255 : BitVec 10).toNat + 326) % 529) % 16 = (4 : GlyphId).toNat) ∧
    exec (.decode 5 3 255 3 4) dirty = .next (dirty.setRsp (okResponse 0x17FF 0)) := ⟨by decide, by decide, rfl⟩
theorem witness_DecodeResult_errors :
    5 < (6 : GlyphId).toNat ∧ exec (.decode 6 0 600 0 0) dirty = .next (dirty.setRsp (errorResponse 6)) ∧
    20 < (21 : GlyphId).toNat ∧ exec (.decode 2 1 8 21 14) dirty = .next (dirty.setRsp (errorResponse 6)) ∧
    15 < (16 : GlyphId).toNat ∧ exec (.decode 2 1 8 8 16) dirty = .next (dirty.setRsp (errorResponse 6)) ∧
    528 < (529 : BitVec 10).toNat ∧ exec (.decode 2 1 529 4 0) dirty = .next (dirty.setRsp (errorResponse 2)) ∧
    (8 : BitVec 10).toNat % 21 ≠ (9 : GlyphId).toNat ∧
    exec (.decode 2 1 8 9 14) dirty = .next (dirty.setRsp (errorResponse 6)) ∧
    exec (.decode 2 1 256 4 0) dirty = .next (dirty.setRsp (errorResponse 3)) ∧
    (255 < (256 : BitVec 10).toNat ∧ (256 : BitVec 10).toNat % 21 = (4 : GlyphId).toNat ∧
      (((256 : BitVec 10).toNat + 326) % 529) % 16 = (5 : GlyphId).toNat) ∧
    exec (.decode 2 1 256 4 5) dirty = .next (dirty.setRsp (errorResponse 1)) :=
  ⟨by decide, rfl, by decide, rfl, by decide, rfl, by decide, rfl, by decide, rfl, rfl, by decide, rfl⟩
theorem witness_ResolveResult_ok :
    ((8 : GlyphId).toNat ≤ 20 ∧ (14 : GlyphId).toNat ≤ 15) ∧
    (∀ i, i ∈ ([8, 281] : List Nat).toFinset ↔
      i ∈ (Finset.range 529).filter fun i => i % 21 = (8 : GlyphId).toNat ∧ ((i + 326) % 529) % 16 = (14 : GlyphId).toNat) ∧
    rspOf (exec (.resolve 1 8 14) dirty) = some (okResponse 0x00102002 (setOf [8, 281])) ∧
    rspOf (exec (.resolve 0 0 2) dirty) = some (okResponse 0x00083401 (setOf [525])) ∧
    rspOf (exec (.resolve 0 13 15) dirty) = some (okResponse 0 0) := by
  have h : ([8, 281] : List Nat).toFinset
      = (Finset.range 529).filter fun i => i % 21 = (8 : GlyphId).toNat ∧ ((i + 326) % 529) % 16 = (14 : GlyphId).toNat := by
    decide +kernel
  exact ⟨by decide, fun i => by rw [h], by decide +kernel⟩
theorem witness_ResolveResult_no_symbol :
    20 < (21 : GlyphId).toNat ∧ exec (.resolve 0 21 0) dirty = .next (dirty.setRsp (errorResponse 6)) ∧
    15 < (16 : GlyphId).toNat ∧ exec (.resolve 0 0 16) dirty = .next (dirty.setRsp (errorResponse 6)) :=
  ⟨by decide, rfl, by decide, rfl⟩

/-! ## Laws: witnesses of their hypotheses -/

theorem witness_PackAndUnpackRoundTrip :
    (0x17FF : Packet).toNat / 2 ^ 10 ≤ 5 ∧ 5 < (0x1800 : Packet).toNat / 2 ^ 10 ∧
    ((5 : BitVec 8).toNat ≤ 5 ∧ (3 : BitVec 8).toNat ≤ 3 ∧ (255 : BitVec 12).toNat ≤ 255) := by decide
theorem witness_AddressRoundTrip :
    (0x17FF : Packet).toNat / 2 ^ 10 ≤ 5 ∧ ((5 : BitVec 8).toNat ≤ 5 ∧ (255 : BitVec 10).toNat ≤ 255) := by decide
theorem witness_RowAndColumnNameTheSameCell :
    ((22 : BitVec 5).toNat ≤ 22 ∧ (0 : BitVec 5).toNat ≤ 22) ∧
    exec (.lookupRc 0 0 22) dirty = .next (dirty.setRsp (okResponse 0x2C1 0)) ∧
    exec (.lookup 1 22) dirty = .next (dirty.setRsp (okResponse 0x2C1 0)) := ⟨by decide, rfl, rfl⟩
theorem witness_ReverseLookupIsNeverUnique : (528 : BitVec 10).toNat ≤ 528 := by decide
-- The flip of 95_test_vectors.md S9: 8 and 24 share the checksum 14.
theorem witness_OneBitIndexFlipsPassOnlyAsDocumented :
    (24 : BitVec 10) = 8 ^^^ BitVec.twoPow 10 4 ∧ flipIsUndetected 4 8 = true ∧
    exec (.chkVerify 14 0 8) dirty = .next (dirty.setRsp (okResponse 1 0)) ∧
    exec (.chkVerify 14 0 24) dirty = .next (dirty.setRsp (okResponse 1 0)) := ⟨by decide, by decide, rfl, rfl⟩
theorem witness_EncodeIsTheCompositionOfItsStages : (0x0E5A : Packet).toNat / 2 ^ 10 ≤ 5 := by decide
theorem witness_DecodeInvertsEncode :
    (0x0E5A : Packet).toNat / 2 ^ 10 ≤ 5 ∧
    exec (.encode 0x0E5A) dirty = .next (dirty.setRsp (okResponse 0x00E168C0 0)) ∧
    decodeCmd (0xB0000000 ||| 0x00E168C0) = .ok (.decode 3 2 90 6 0) ∧
    exec (.decode 3 2 90 6 0) dirty = .next (dirty.setRsp (okResponse 0x0E5A 0)) := ⟨by decide, rfl, by decide, rfl⟩
theorem witness_DecodeSucceedsOnlyOnEncodings :
    exec (.decode 2 1 24 3 14) dirty = .next (dirty.setRsp (okResponse 0x918 0)) ∧
    exec (.encode 0x918) dirty = .next (dirty.setRsp (okResponse 0x0090606E 0)) := ⟨rfl, rfl⟩
theorem witness_OneBitTripletFlipsAreDetectedAsDocumented :
    exec (.encode 0x0908) dirty = .next (dirty.setRsp (okResponse 0x0090210E 0)) ∧
    flippedTripletResponse 0x0908 0 = errorResponse 3 ∧ flippedTripletResponse 0x0908 4 = errorResponse 6 ∧
    flippedTripletResponse 0x0908 19 = errorResponse 6 ∧ flippedTripletResponse 0x0918 19 = errorResponse 2 ∧
    flippedTripletResponse 0x0908 20 = okResponse 0x0808 0 ∧ flippedTripletResponse 0x0908 24 = errorResponse 6 ∧
    flippedTripletResponse 0x0508 24 = okResponse 0x1508 0 ∧ flippedTripletResponse 0x0908 26 = errorResponse 6 := by
  refine ⟨rfl, ?_⟩
  decide +kernel
theorem witness_GlyphAndChecksumLeaveAtMostTwoCells : (20 : GlyphId).toNat ≤ 20 ∧ (15 : GlyphId).toNat ≤ 15 := by decide
theorem witness_ResolveRecoversThePayload :
    exec (.encode 0x0627) dirty = .next (dirty.setRsp (okResponse 0x00609E4D 0)) ∧
    rspOf (exec (.resolve 2 18 13) dirty) = some (okResponse 0x00109C02 (setOf [39, 312])) := ⟨rfl, by decide +kernel⟩

/-! ## Instances and the host's framing: witnesses and 95_test_vectors.md 2.14 -/

theorem witness_InstancesShareNothing :
    [dirty, State.reset][1]? = some State.reset ∧
    clockInstance 1 (Input.command 0x10201008) [dirty, State.reset]
      = some [dirty, ⟨okResponse 0x908 0, []⟩] := ⟨rfl, rfl⟩
theorem witness_SplitCutsTheBitString :
    splitBytes [0xA5, 0x5A] = ([0x14AB, 0x0800], 16) ∧ splitBytes [] = ([], 0) := by decide +kernel
theorem test_split_one_bad_unit : splitBytes [0xC0] = ([0x1800], 8) := by decide +kernel
theorem witness_EncodeBufferNumbersItsTriplets :
    (∀ u ∈ (splitBytes [0xA5, 0x5A]).1, u.toNat / 2 ^ 10 ≤ 5) ∧
    encodeBuffer [0xA5, 0x5A] dirty = .ok ⟨16, [.unit 0 0x142AC61, .unit 1 0x0800006]⟩ ∧
    (∃ u ∈ (splitBytes [0xC0]).1, 5 < u.toNat / 2 ^ 10) ∧
    encodeBuffer [0xC0] dirty = .error (.status 1) := by
  refine ⟨?_, by decide +kernel, ?_, by decide +kernel⟩
  · rw [witness_SplitCutsTheBitString.1]; simp
  · rw [test_split_one_bad_unit]; simp
theorem witness_ReassembleChecksThenJoinsTheBits :
    reassemble [(0, 0x0908)] 40 = .error (.status 4) ∧
    reassemble [(0, 0x14AB), (2, 0x0800)] 16 = .error (.status 5) ∧
    reassemble [(0, 0x14AB), (1, 0x0800), (2, 0)] 16 = .error .excessPackets ∧
    reassemble [(0, 0x14AB), (1, 0x0800)] 17 = .error .bitLengthNotBytes ∧
    reassemble [(0, 0x14AB), (1, 0x0800)] 16 = .ok [0xA5, 0x5A] := by decide +kernel
theorem witness_FirstBadElementEndsTheFrame :
    (present (decodeWord 0x090210E) dirty = .next (dirty.setRsp (okResponse 0x908 0))) ∧
    (present (decodeWord 0x150C4E6) dirty = .next (dirty.setRsp (errorResponse 3))) ∧
    decodeStream ⟨40, [.unit 0 0x090210E, .unit 1 0x150C4E6, .unit 7 0x0609E4D]⟩ dirty = .error (.status 3) ∧
    decodeStream ⟨40, [.unit 0 0x090210E, .malformed]⟩ dirty = .error (.status 6) :=
  ⟨rfl, rfl, by decide +kernel, by decide +kernel⟩
theorem test_split_hello :
    splitBytes [0x48, 0x45, 0x4C, 0x4C, 0x4F] = ([0x0908, 0x1531, 0x0627, 0x1000], 40) := by decide +kernel
theorem witness_BufferRoundTrip :
    (∀ u ∈ (splitBytes [0x48, 0x45, 0x4C, 0x4C, 0x4F]).1, u.toNat / 2 ^ 10 ≤ 5) := by
  rw [test_split_hello]; simp

end Sys2Proof.Tests
end

/-! ## The shapes of a command's result, and the soundness of every response (10_state.md) -/

namespace Sys2Proof.Machine

/-! ### The size of a data word -/

/-- A leading field of zeros adds nothing to a concatenation. -/
theorem concatNat_zero_cons (n : Nat) (fs : List (Σ n : Nat, BitVec n)) : concatNat (⟨n, 0⟩ :: fs) = concatNat fs := by
  simp [concatNat]

/-- A concatenation fits the sum of its fields' widths. -/
theorem concatNat_lt (fs : List (Σ n : Nat, BitVec n)) : concatNat fs < 2 ^ (fs.map Sigma.fst).sum := by
  induction fs using List.reverseRecOn with
  | nil => simp
  | append_singleton fs f ih =>
    have hf := f.2.isLt
    rw [concatNat_concat_last]
    calc concatNat fs * 2 ^ f.1 + f.2.toNat
        < (concatNat fs + 1) * 2 ^ f.1 := by rw [Nat.add_one_mul]; omega
      _ ≤ 2 ^ (fs.map Sigma.fst).sum * 2 ^ f.1 := Nat.mul_le_mul_right _ ih
      _ = 2 ^ ((fs ++ [f]).map Sigma.fst).sum := by simp [Nat.pow_add]

/-- A data word whose layout has at most 28 bits leaves bits 31:28 zero (30_encoding.md R35). -/
theorem concat_toNat_lt {fs : List (Σ n : Nat, BitVec n)} (h : (fs.map Sigma.fst).sum ≤ 28) :
    (concat 32 fs).toNat < 2 ^ 28 := by
  rw [concat_toNat]
  calc concatNat fs % 2 ^ 32
      ≤ concatNat fs := Nat.mod_le _ _
    _ < 2 ^ (fs.map Sigma.fst).sum := concatNat_lt fs
    _ ≤ 2 ^ 28 := Nat.pow_le_pow_right (by decide) h

/-- The same with the zeros in front written out, as R35 does. -/
theorem concat_zero_cons_toNat_lt {n : Nat} {fs : List (Σ n : Nat, BitVec n)} (h : (fs.map Sigma.fst).sum ≤ 28) :
    (concat 32 (⟨n, 0⟩ :: fs)).toNat < 2 ^ 28 := by
  rw [concat, concatNat_zero_cons]
  exact concat_toNat_lt h

/-- A field of at most 28 bits, extended to a data word, leaves bits 31:28 zero. -/
theorem setWidth_toNat_lt {n : Nat} (hn : n ≤ 28) (v : BitVec n) : (v.setWidth 32).toNat < 2 ^ 28 := by
  rw [BitVec.toNat_setWidth]
  calc v.toNat % 2 ^ 32
      ≤ v.toNat := Nat.mod_le _ _
    _ < 2 ^ n := v.isLt
    _ ≤ 2 ^ 28 := Nat.pow_le_pow_right (by decide) hn

theorem cellsWhere_length_le (p : CellIndex → Bool) : (cellsWhere p).length ≤ 529 := by
  simpa [cellsWhere] using List.length_filter_le p (List.finRange 529)

/-! ### What a command can answer, said once -/

/-- The results that `Exec` of command `i` can have: an error with one of the four statuses a command raises, a data
word without a set, or (RLOOKUP and RESOLVE alone) a set of cells with their number in data bits 9:0
(60_exceptions.md R120, R122; 30_encoding.md R35, R36). -/
inductive Allows (i : Instr) : Result → Prop where
  | error (st : Status) (raised : st.code ∈ ([1, 2, 3, 6] : List (BitVec 4))) : Allows i (raise st)
  | data (d : Word) (fits : d.toNat < 2 ^ 28) : Allows i (ret d 0)
  | cells (d : Word) (p : CellIndex → Bool) (writer : i.mnemonic = "RLOOKUP" ∨ i.mnemonic = "RESOLVE")
      (fits : d.toNat < 2 ^ 28) (counted : d.toNat % 2 ^ 10 = (cellsWhere p).length) :
      Allows i (ret d (cellSet (cellsWhere p)))

theorem packResult_allowed (nt8 oct8 : BitVec 8) (pay12 : BitVec 12) :
    Allows (.pack nt8 oct8 pay12) (packResult nt8 oct8 pay12) := by
  unfold packResult
  split
  · exact .error _ (by decide)
  · exact .data _ (setWidth_toNat_lt (by decide) _)

theorem unpackResult_allowed (pkt : Packet) : Allows (.unpack pkt) (unpackResult pkt) :=
  .data _ (concat_zero_cons_toNat_lt (by simp))

theorem lookupResult_allowed (t : TableId) (i : BitVec 10) : Allows (.lookup t i) (lookupResult t i) := by
  unfold lookupResult
  split
  · exact .error _ (by decide)
  · exact .data _ (concat_zero_cons_toNat_lt (by simp))

theorem lookupRcResult_allowed (t : TableId) (row col : BitVec 5) :
    Allows (.lookupRc t row col) (lookupRcResult t row col) := by
  unfold lookupRcResult
  split
  · exact .error _ (by decide)
  · exact .data _ (concat_zero_cons_toNat_lt (by simp))

theorem rlookupResult_allowed (t : TableId) (g : GlyphId) : Allows (.rlookup t g) (rlookupResult t g) := by
  unfold rlookupResult
  split
  · have hlen : (cellsHolding t g).length ≤ 529 := cellsWhere_length_le _
    have hdata : (BitVec.ofNat 32 (cellsHolding t g).length).toNat = (cellsHolding t g).length :=
      Nat.mod_eq_of_lt (by omega)
    exact .cells _ _ (.inl rfl) (by omega) (by rw [hdata]; exact Nat.mod_eq_of_lt (by omega))
  · exact .error _ (by decide)

theorem toAddrResult_allowed (pkt : Packet) : Allows (.toAddr pkt) (toAddrResult pkt) := by
  unfold toAddrResult
  split
  · exact .data _ (setWidth_toNat_lt (by decide) _)
  · exact .error _ (by decide)

theorem fromAddrResult_allowed (nt8 : BitVec 8) (t : TableId) (i : BitVec 10) :
    Allows (.fromAddr nt8 t i) (fromAddrResult nt8 t i) := by
  unfold fromAddrResult
  split
  · exact .error _ (by decide)
  · split
    · exact .error _ (by decide)
    · exact .data _ (setWidth_toNat_lt (by decide) _)

theorem chkComputeResult_allowed (t : TableId) (i : BitVec 10) :
    Allows (.chkCompute t i) (chkComputeResult t i) := by
  unfold chkComputeResult
  split
  · exact .error _ (by decide)
  · exact .data _ (setWidth_toNat_lt (by decide) _)

theorem chkVerifyResult_allowed (c : Checksum) (t : TableId) (i : BitVec 10) :
    Allows (.chkVerify c t i) (chkVerifyResult c t i) := by
  unfold chkVerifyResult
  split
  · exact .error _ (by decide)
  · exact .data _ (by split <;> decide)

theorem encodeResult_allowed (pkt : Packet) : Allows (.encode pkt) (encodeResult pkt) := by
  unfold encodeResult
  split
  · exact .data _ (setWidth_toNat_lt (by decide) _)
  · exact .error _ (by decide)

theorem decodeResult_allowed (ntg : GlyphId) (t : TableId) (i : BitVec 10) (g cg : GlyphId) :
    Allows (.decode ntg t i g cg) (decodeResult ntg t i g cg) := by
  unfold decodeResult
  split
  · exact .error _ (by decide)
  · split
    · exact .error _ (by decide)
    · split
      · exact .error _ (by decide)
      · split
        · exact .error _ (by decide)
        · split
          · exact .error _ (by decide)
          · exact .data _ (setWidth_toNat_lt (by decide) _)

theorem resolveResult_allowed (t : TableId) (g cg : GlyphId) :
    Allows (.resolve t g cg) (resolveResult t g cg) := by
  unfold resolveResult
  split
  · exact .error _ (by decide)
  · have hlen : (candidates t g (glyphChecksum cg)).length ≤ 529 := cellsWhere_length_le _
    refine .cells _ _ (.inr rfl) (concat_toNat_lt (by simp)) ?_
    change _ = (candidates t g (glyphChecksum cg)).length
    simp [concatNat]
    omega

/-- Every command is answered with a result that it allows and that does not depend on the state. -/
theorem exec_answers_allowed (i : Instr) : ∃ r : Result, Allows i r ∧ ∀ s, exec i s = answer r s := by
  cases i with
  | pack => exact ⟨_, packResult_allowed _ _ _, exec_pack _ _ _⟩
  | unpack => exact ⟨_, unpackResult_allowed _, exec_unpack _⟩
  | lookup => exact ⟨_, lookupResult_allowed _ _, exec_lookup _ _⟩
  | lookupRc => exact ⟨_, lookupRcResult_allowed _ _ _, exec_lookupRc _ _ _⟩
  | rlookup => exact ⟨_, rlookupResult_allowed _ _, exec_rlookup _ _⟩
  | toAddr => exact ⟨_, toAddrResult_allowed _, exec_toAddr _⟩
  | fromAddr => exact ⟨_, fromAddrResult_allowed _ _ _, exec_fromAddr _ _ _⟩
  | chkCompute => exact ⟨_, chkComputeResult_allowed _ _, exec_chkCompute _ _⟩
  | chkVerify => exact ⟨_, chkVerifyResult_allowed _ _ _, exec_chkVerify _ _ _⟩
  | encode => exact ⟨_, encodeResult_allowed _, exec_encode _⟩
  | decode => exact ⟨_, decodeResult_allowed _ _ _ _ _, exec_decode _ _ _ _ _⟩
  | resolve => exact ⟨_, resolveResult_allowed _ _ _, exec_resolve _ _ _⟩

/-! ### The responses that are sound -/

theorem Response.zero_sound : Response.zero.Sound where
  status_written := by decide
  zero_if_not_valid _ := rfl
  error_is_empty h := absurd rfl h
  data_fits := by decide
  set_is_counted h := absurd rfl h

theorem errorResponse_sound {c : BitVec 4} (h : c ∈ ([0, 1, 2, 3, 6, 7] : List (BitVec 4))) :
    (errorResponse c).Sound where
  status_written := h
  zero_if_not_valid hv := by simp at hv
  error_is_empty _ := ⟨rfl, rfl⟩
  data_fits := by simp
  set_is_counted hset := absurd rfl hset

theorem okResponse_sound {d : Word} {set : CellSet} (hd : d.toNat < 2 ^ 28)
    (hset : set ≠ 0 → d.toNat % 2 ^ 10 = cellCount set) : (okResponse d set).Sound where
  status_written := by simp
  zero_if_not_valid hv := by simp at hv
  error_is_empty h := absurd rfl h
  data_fits := hd
  set_is_counted := hset

/-- A result that a command allows is written as a sound response. -/
theorem Allows.answer_sound {i : Instr} {r : Result} (h : Allows i r) :
    ∃ rsp : Response, rsp.Sound ∧ ∀ s, answer r s = .next (s.setRsp rsp) := by
  cases h with
  | error st raised =>
    have hcodes : ([1, 2, 3, 6] : List (BitVec 4)) ⊆ [0, 1, 2, 3, 6, 7] := by decide
    exact ⟨_, errorResponse_sound (hcodes raised), answer_raise st⟩
  | data d fits => exact ⟨_, okResponse_sound fits (absurd rfl), answer_ret d 0⟩
  | cells d p _ fits counted =>
    exact ⟨_, okResponse_sound fits fun _ => by rw [counted, cellCount_cellSet_cellsWhere], answer_ret d _⟩

/-- Every command word is answered with a sound response, whether it is a command or not. -/
theorem command_answers_sound (w : Word) :
    ∃ rsp : Response, rsp.Sound ∧ ∀ s, command w s = .next (s.setRsp rsp) := by
  cases hw : decodeCmd w with
  | error e => exact ⟨_, errorResponse_sound (by decide), command_of_error hw⟩
  | ok i =>
    obtain ⟨r, hallowed, hexec⟩ := exec_answers_allowed i
    obtain ⟨rsp, hsound, hanswer⟩ := hallowed.answer_sound
    exact ⟨rsp, hsound, fun s => by rw [command_of_decode hw, hexec, hanswer]⟩

/-- Every edge writes a sound response, a function of what is sampled at it (10_state.md R14). -/
theorem edge_answers_sound (inp : Input) :
    ∃ rsp : Response, rsp.Sound ∧ ∀ s, edge inp s = .next (s.setRsp rsp) := by
  obtain ⟨rst, cmdValid, w⟩ := inp
  cases rst with
  | true => exact ⟨_, Response.zero_sound, fun s => edge_reset s cmdValid w⟩
  | false =>
    cases cmdValid with
    | false => exact ⟨_, Response.zero_sound, fun s => edge_idle s w⟩
    | true => exact command_answers_sound w

/-! ### The obligations -/

/-- Settles O11: a step that is taken is an edge, and every edge writes a sound response. -/
theorem everyStepLeavesASoundResponse : Obligations.EveryStepLeavesASoundResponse := by
  unfold Obligations.EveryStepLeavesASoundResponse
  intro s t hstep
  cases hinputs : s.inputs with
  | nil => simp [step_nil hinputs] at hstep
  | cons inp rest =>
    obtain ⟨rsp, hsound, hedge⟩ := edge_answers_sound inp
    rw [step_of_inputs hinputs, hedge, Host.Outcome.next.injEq] at hstep
    subst hstep
    exact hsound

/-- Settles O6, branch by branch of the step rule: the command's status, data and set come from `command_answers`. -/
theorem everyEdgeFollowsTheStepRule : Obligations.EveryEdgeFollowsTheStepRule := by
  unfold Obligations.EveryEdgeFollowsTheStepRule
  refine ⟨fun s rest cmdValid cmd => ?reset, fun cmd => ?command, fun s rest cmd => ?idle⟩
  case reset => rw [step_cons, edge_reset]; rfl
  case command =>
    obtain ⟨r, hr⟩ := command_answers cmd
    exact ⟨r.status.code, r.data, r.set, fun s rest => ⟨hr (s.setInputs rest), hr s⟩⟩
  case idle => rw [step_cons, edge_idle]; rfl

/-- Settles O14, by the three shapes of a result that a command allows. -/
theorem commandsChangeOnlyTheResponse : Obligations.CommandsChangeOnlyTheResponse := by
  unfold Obligations.CommandsChangeOnlyTheResponse
  intro i s
  obtain ⟨r, hallowed, hexec⟩ := exec_answers_allowed i
  rw [hexec]
  cases hallowed with
  | error st _ => exact ⟨errorResponse st.code, rfl, rfl, fun _ => ⟨rfl, rfl⟩, absurd rfl⟩
  | data d _ => exact ⟨okResponse d 0, rfl, rfl, absurd rfl, absurd rfl⟩
  | cells d p writer _ _ => exact ⟨okResponse d _, rfl, rfl, absurd rfl, fun _ => writer⟩

/-- Settles O5: the edge that samples a command word runs `command`, which runs what the word decodes to. -/
theorem stepRunsTheDecodedCommand : Obligations.StepRunsTheDecodedCommand := by
  unfold Obligations.StepRunsTheDecodedCommand
  intro s rest w i hdecode
  rw [step_cons, edge_command, command_of_decode hdecode]

/-- Settles O10: the reset state holds the zero response, which is sound. -/
theorem resetStateIsSound : Obligations.ResetStateIsSound := by
  unfold Obligations.ResetStateIsSound
  exact ⟨rfl, Response.zero_sound⟩

end Sys2Proof.Machine

/-! ## The response to a word does not depend on the run (20_memory.md R26) -/

namespace Sys2Proof.Machine

/-- A run shows, at the position of an input, the response that the edge of that input writes. -/
theorem trace_getElem?_length_append {inp : Input} {r : Response} (h : ∀ s, edge inp s = .next (s.setRsp r))
    (pre post : List Input) (s : State) : (trace (pre ++ inp :: post) s)[pre.length]? = some r := by
  induction pre generalizing s with
  | nil => simp [trace, h]
  | cons a pre ih =>
    obtain ⟨ra, -, htrace⟩ := trace_cons a
    simp [htrace, ih]

/-- Settles O12: the one response is `Exec(w)`'s, which `command_answers` gives before any state is named; presenting
`w` and the edge that samples `w` in a run are both `command w`. -/
theorem responseDoesNotDependOnHistory : Obligations.ResponseDoesNotDependOnHistory := by
  unfold Obligations.ResponseDoesNotDependOnHistory
  intro w
  obtain ⟨r, hr⟩ := command_answers w
  have hedge (s : State) : edge (Input.command w) s = .next (s.setRsp ⟨true, r.status.code, r.data, r.set⟩) := by
    rw [edge_command, hr, answer]
  refine ⟨⟨true, r.status.code, r.data, r.set⟩, rfl, fun s => ?present, fun s pre post => ?run⟩
  case present => rw [present_eq_command, ← edge_command, hedge]
  case run => exact trace_getElem?_length_append hedge pre post s

end Sys2Proof.Machine

/-! ## The command word and the assembler: encoder, decoder and opcode map agree (30_encoding.md) -/

namespace Sys2Proof.Machine

/-! ### A concatenation is the word whose slices are its fields -/

/-- The slices of `v`, read at the positions of the listed fields, are those fields; the last field stands at bit 0. -/
def SlicesAre {n : Nat} (v : BitVec n) : List (Σ n : Nat, BitVec n) → Prop
  | [] => True
  | f :: fs => v.extractLsb' (fs.map Sigma.fst).sum f.1 = f.2 ∧ SlicesAre v fs

@[simp] theorem slicesAre_nil {n : Nat} (v : BitVec n) : SlicesAre v [] := trivial

@[simp] theorem slicesAre_cons {n : Nat} (v : BitVec n) (f : Σ n : Nat, BitVec n) (fs : List (Σ n : Nat, BitVec n)) :
    SlicesAre v (f :: fs) ↔ v.extractLsb' (fs.map Sigma.fst).sum f.1 = f.2 ∧ SlicesAre v fs := Iff.rfl

/-- The first field of a concatenation is the most significant. -/
theorem concatNat_cons (f : Σ n : Nat, BitVec n) (fs : List (Σ n : Nat, BitVec n)) :
    concatNat (f :: fs) = concatNat fs + 2 ^ (fs.map Sigma.fst).sum * f.2.toNat := by
  induction fs using List.reverseRecOn with
  | nil => simp [concatNat]
  | append_singleton fs g ih =>
    rw [← List.cons_append, concatNat_concat_last, concatNat_concat_last, ih]
    simp only [List.map_append, List.map_cons, List.map_nil, List.sum_append, List.sum_singleton, Nat.pow_add]
    ring

/-- The low bits of a number are a concatenation when every field is the slice at its position: division with
remainder, field by field. -/
theorem slicesAre_iff_toNat_mod {n : Nat} (v : BitVec n) (fs : List (Σ n : Nat, BitVec n)) :
    SlicesAre v fs ↔ concatNat fs = v.toNat % 2 ^ (fs.map Sigma.fst).sum := by
  induction fs with
  | nil => simp [Nat.mod_one]
  | cons f fs ih =>
    have hdivmod := Nat.div_mod_unique (a := v.toNat % (2 ^ (fs.map Sigma.fst).sum * 2 ^ f.1))
      (d := f.2.toNat) (c := concatNat fs) (Nat.two_pow_pos (fs.map Sigma.fst).sum)
    rw [Nat.mod_mul_right_div_self, Nat.mod_mul_right_mod, and_iff_left (concatNat_lt fs)] at hdivmod
    rw [slicesAre_cons, ih, concatNat_cons, List.map_cons, List.sum_cons, Nat.add_comm f.1, Nat.pow_add, ← hdivmod,
      ← BitVec.toNat_inj, extractLsb'_toNat_div, eq_comm (a := concatNat fs)]

/-- A value is the concatenation of fields that fill its width exactly when its slices are those fields
(00_scope.md R4). -/
theorem concat_eq_iff {n : Nat} (v : BitVec n) (fs : List (Σ n : Nat, BitVec n)) (hwidth : (fs.map Sigma.fst).sum = n) :
    concat n fs = v ↔ SlicesAre v fs := by
  subst hwidth
  rw [← BitVec.toNat_inj, concat_toNat, slicesAre_iff_toNat_mod, Nat.mod_eq_of_lt (concatNat_lt fs),
    Nat.mod_eq_of_lt v.isLt]

end Sys2Proof.Machine

namespace Sys2Proof

open Sys2Proof.Machine

/-! ### Decoder and encoder -/

/-- The decoder takes a command's word apart: its slices are the encoder's fields. -/
theorem decodeCmd_of_encodeCmd {w : Word} {i : Instr} (h : encodeCmd i = w) : decodeCmd w = .ok i := by
  cases i
  all_goals
    simp [encodeCmd, concat_eq_iff] at h
    simp [decodeCmd, ifReservedZero, zeroBits, h]

/-- The encoder puts a decoded word together again: the operands are the word's slices, and the bits that are no
operand are the opcode that selected the arm and the reserved zeros it checked. -/
theorem encodeCmd_of_decodeCmd {w : Word} {i : Instr} (h : decodeCmd w = .ok i) : encodeCmd i = w := by
  unfold decodeCmd at h
  split at h
  case h_1 hop =>
    -- PACK reserves no bit
    cases h
    simp [encodeCmd, concat_eq_iff, hop]
  case h_13 => cases h
  all_goals
    rename_i hop
    obtain ⟨hreserved, rfl⟩ := (ifReservedZero_eq_ok _ _ _).1 h
    simpa [encodeCmd, concat_eq_iff, hop, zeroBits] using hreserved

/-- Settles O1: the slices of a concatenation are its fields. -/
theorem decodingAnEncodedCommandReturnsIt : Obligations.DecodingAnEncodedCommandReturnsIt :=
  fun _ => decodeCmd_of_encodeCmd rfl

/-- Settles O2: the slices that the decoder reads and the bits that it checks make up the whole word. -/
theorem encodingADecodedWordReturnsIt : Obligations.EncodingADecodedWordReturnsIt :=
  fun _ _ => encodeCmd_of_decodeCmd

/-! ### The opcode map -/

/-- A word that matches a row has the row's pattern wherever the mask is all ones. -/
theorem slice_of_match {w m p : Word} {lo len : Nat} (h : w &&& m = p)
    (hmask : m.extractLsb' lo len = BitVec.allOnes len) : w.extractLsb' lo len = p.extractLsb' lo len := by
  rw [← h, BitVec.extractLsb'_and, hmask, BitVec.and_allOnes]

/-- Every mask holds bits 31:28, so a word that matches a row has the row's opcode. -/
theorem opcode_of_match {w : Word} {r : OpcodeRow} (hr : r ∈ opcodeMap) (h : w &&& r.mask = r.pattern) :
    w.toNat / 2 ^ 28 = r.pattern.toNat / 2 ^ 28 := by
  have hmask : ∀ r ∈ opcodeMap, r.mask.extractLsb' 28 4 = BitVec.allOnes 4 := by decide
  have hslice := congrArg BitVec.toNat (slice_of_match h (hmask r hr))
  rw [extractLsb'_toNat_div, extractLsb'_toNat_div] at hslice
  omega

/-- No two rows have the same opcode. -/
theorem row_eq_of_opcode_eq {r r' : OpcodeRow} (hr : r ∈ opcodeMap) (hr' : r' ∈ opcodeMap)
    (h : r.pattern.toNat / 2 ^ 28 = r'.pattern.toNat / 2 ^ 28) : r = r' :=
  List.inj_on_of_nodup_map (f := fun r : OpcodeRow => r.pattern.toNat / 2 ^ 28) (by decide) hr hr' h

/-- The word of every command matches the row with its mnemonic (30_encoding.md R46). -/
theorem encodeCmd_matches_row (i : Instr) :
    ∃ r ∈ opcodeMap, r.mnemonic = i.mnemonic ∧ encodeCmd i &&& r.mask = r.pattern := by
  cases i with
  | pack => exact Laws.MatchesItsRow.pack _ _ _
  | unpack => exact Laws.MatchesItsRow.unpack _
  | lookup => exact Laws.MatchesItsRow.lookup _ _
  | lookupRc => exact Laws.MatchesItsRow.lookupRc _ _ _
  | rlookup => exact Laws.MatchesItsRow.rlookup _ _
  | toAddr => exact Laws.MatchesItsRow.toAddr _
  | fromAddr => exact Laws.MatchesItsRow.fromAddr _ _ _
  | chkCompute => exact Laws.MatchesItsRow.chkCompute _ _
  | chkVerify => exact Laws.MatchesItsRow.chkVerify _ _ _
  | encode => exact Laws.MatchesItsRow.encode _
  | decode => exact Laws.MatchesItsRow.decode _ _ _ _ _
  | resolve => exact Laws.MatchesItsRow.resolve _ _ _

/-- A word that matches a row is decoded as a command of that row: the row's mask holds the opcode, which selects the
arm, and every bit that the arm reserves. -/
theorem decodeCmd_of_match {w : Word} {r : OpcodeRow} (hr : r ∈ opcodeMap) (h : w &&& r.mask = r.pattern) :
    ∃ i : Instr, i.mnemonic = r.mnemonic ∧ decodeCmd w = .ok i := by
  simp only [opcodeMap, List.mem_cons, List.not_mem_nil, or_false] at hr
  rcases hr with rfl | rfl | rfl | rfl | rfl | rfl | rfl | rfl | rfl | rfl | rfl | rfl <;>
    simp [decodeCmd, ifReservedZero, zeroBits, Instr.mnemonic, slice_of_match h]

/-- A word that no row matches is answered with `ILLEGAL_COMMAND` (30_encoding.md R34, R47): were it a command, it
would match that command's row. -/
theorem present_of_no_match {w : Word} (h : ∀ r ∈ opcodeMap, w &&& r.mask ≠ r.pattern) (s : State) :
    present w s = .next (s.setRsp (errorResponse 7)) := by
  rw [present_eq_command]
  cases hdecode : decodeCmd w with
  | error e => exact command_of_error hdecode s
  | ok i =>
    obtain ⟨r, hr, -, hmatch⟩ := encodeCmd_matches_row i
    rw [encodeCmd_of_decodeCmd hdecode] at hmatch
    exact absurd hmatch (h r hr)

/-- Settles O3: a word that matches a row has its opcode, and opcodes tell the rows apart. -/
theorem commandWordIsReadInTheFixedOrder : Obligations.CommandWordIsReadInTheFixedOrder := by
  unfold Obligations.CommandWordIsReadInTheFixedOrder
  intro w s
  refine ⟨fun hopcode => ?unassigned, fun r hr hopcode hne => ?reserved, fun r hr hmatch => ?command,
    fun r hr r' hr' hmatch hmatch' => ?unique⟩
  case unassigned =>
    have hassigned : ∀ r ∈ opcodeMap, r.pattern.toNat / 2 ^ 28 ∉ [0x0, 0xD, 0xE, 0xF] := by decide
    refine present_of_no_match (fun r hr hmatch => hassigned r hr ?_) s
    rwa [← opcode_of_match hr hmatch]
  case reserved =>
    refine present_of_no_match (fun r' hr' hmatch' => hne ?_) s
    rwa [row_eq_of_opcode_eq hr hr' (hopcode.symm.trans (opcode_of_match hr' hmatch'))]
  case command =>
    obtain ⟨i, hmnemonic, hdecode⟩ := decodeCmd_of_match hr hmatch
    exact ⟨i, hmnemonic, encodeCmd_of_decodeCmd hdecode, command_of_decode hdecode s⟩
  case unique =>
    exact row_eq_of_opcode_eq hr hr' ((opcode_of_match hr hmatch).symm.trans (opcode_of_match hr' hmatch'))

end Sys2Proof

namespace Sys2Proof.Machine

/-! ### The assembler -/

/-- The shifts and ORs of the assembler give the word the encoder concatenates, when the operands fit: no field
reaches into the one above it (30_encoding.md R48). -/
theorem asmWord_of_asmInstr {line : AsmLine} {i : Instr} (hwf : line.wellFormed = true) (h : asmInstr line = some i) :
    ∃ n, asmWord line = some n ∧ BitVec.ofNat 32 n = encodeCmd i := by
  cases line
  case word | idle | reset => simp [asmInstr] at h
  all_goals
    simp only [asmInstr, Option.some.injEq] at h
    subst h
    refine ⟨_, rfl, ?_⟩
    simp only [AsmLine.wellFormed, Bool.and_eq_true, decide_eq_true_eq] at hwf
    simp (disch := omega) only [↓Nat.or_assoc, ← Nat.shiftLeft_add_eq_or_of_lt]
    apply BitVec.eq_of_toNat_eq
    simp [encodeCmd, concatNat]
    omega

/-- Settles O42. -/
theorem assemblerAgreesWithTheEncoder : Obligations.AssemblerAgreesWithTheEncoder := by
  unfold Obligations.AssemblerAgreesWithTheEncoder
  refine ⟨fun line hwf => ?illFormed, fun line i hwf hinstr => ?command, fun w hw => ?word, ⟨0, rfl⟩, ⟨false, 0, rfl⟩⟩
  case illFormed => simp [assemble, hwf]
  case command =>
    obtain ⟨n, hn, hword⟩ := asmWord_of_asmInstr hwf hinstr
    exact ⟨by simp [assemble, hwf, hn, hword], decodeCmd_of_encodeCmd rfl⟩
  case word => simpa [assemble, asmWord, AsmLine.wellFormed] using hw

end Sys2Proof.Machine

/-! ## Bit-field packing: PACK and UNPACK (40_bitpacket.md) -/

namespace Sys2Proof.Machine

/-! ### Their words as numbers (30_encoding.md R37, R38) -/

theorem encodeCmd_pack (nt8 oct8 : BitVec 8) (pay12 : BitVec 12) :
    encodeCmd (.pack nt8 oct8 pay12)
      = BitVec.ofNat 32 (0x10000000 + nt8.toNat * 2 ^ 20 + oct8.toNat * 2 ^ 12 + pay12.toNat) :=
  congrArg (BitVec.ofNat 32) (by simp [concatNat]; omega)

theorem encodeCmd_unpack (pkt : Packet) : encodeCmd (.unpack pkt) = BitVec.ofNat 32 (0x20000000 + pkt.toNat) :=
  congrArg (BitVec.ofNat 32) (by simp [concatNat])

/-! ### What they answer -/

/-- Fields in range lose no bit when they are cut to the widths of a packet's fields (40_bitpacket.md R53). -/
theorem mkPacket_slices_toNat {nt8 oct8 : BitVec 8} {pay12 : BitVec 12}
    (hfits : nt8.toNat ≤ 5 ∧ oct8.toNat ≤ 3 ∧ pay12.toNat ≤ 255) :
    (mkPacket (nt8.extractLsb' 0 3) (oct8.extractLsb' 0 2) (pay12.extractLsb' 0 8)).toNat
      = nt8.toNat * 2 ^ 10 + oct8.toNat * 2 ^ 8 + pay12.toNat := by
  simp only [mkPacket_toNat, extractLsb'_toNat_div]
  omega

theorem packResult_of_fits {nt8 oct8 : BitVec 8} {pay12 : BitVec 12}
    (hfits : nt8.toNat ≤ 5 ∧ oct8.toNat ≤ 3 ∧ pay12.toNat ≤ 255) :
    packResult nt8 oct8 pay12
      = ret (BitVec.ofNat 32 (nt8.toNat * 2 ^ 10 + oct8.toNat * 2 ^ 8 + pay12.toNat)) 0 := by
  rw [packResult, if_neg (by omega), ← BitVec.ofNat_toNat, mkPacket_slices_toNat hfits]

theorem packResult_of_not_fits {nt8 oct8 : BitVec 8} {pay12 : BitVec 12}
    (hrange : 5 < nt8.toNat ∨ 3 < oct8.toNat ∨ 255 < pay12.toNat) :
    packResult nt8 oct8 pay12 = raise .fieldOutOfRange :=
  if_pos hrange

theorem unpackResult_eq_ret (pkt : Packet) :
    unpackResult pkt = ret (BitVec.ofNat 32
      (pkt.toNat / 2 ^ 10 * 2 ^ 20 + pkt.toNat / 2 ^ 8 % 4 * 2 ^ 12 + pkt.toNat % 256)) 0 := by
  have := pkt.isLt
  refine congrArg (fun n => ret (BitVec.ofNat 32 n) 0) ?_
  simp [concatNat]
  omega

/-! ### The data of UNPACK is the operand part of a PACK word (40_bitpacket.md R51) -/

/-- ORing the PACK opcode over a word with zeros in bits 31:28 writes the opcode and leaves the operands. -/
theorem encodeCmd_pack_eq_or {nt8 oct8 : BitVec 8} {pay12 : BitVec 12} {d : Word}
    (hd : concat 32 [⟨4, 0⟩, ⟨8, nt8⟩, ⟨8, oct8⟩, ⟨12, pay12⟩] = d) :
    encodeCmd (.pack nt8 oct8 pay12) = 0x10000000 ||| d := by
  simp [concat_eq_iff] at hd
  simp [encodeCmd, concat_eq_iff, BitVec.extractLsb'_or, hd]

/-- UNPACK reports the operands of a PACK word, and they are the packet's three fields. -/
theorem exists_pack_operands_of_unpack (pkt : Packet) : ∃ (d : Word) (nt8 oct8 : BitVec 8) (pay12 : BitVec 12),
    unpackResult pkt = ret d 0 ∧ encodeCmd (.pack nt8 oct8 pay12) = 0x10000000 ||| d ∧
    nt8.toNat = pkt.toNat / 2 ^ 10 ∧ oct8.toNat = pkt.toNat / 2 ^ 8 % 4 ∧ pay12.toNat = pkt.toNat % 256 :=
  ⟨_, _, _, _, rfl, encodeCmd_pack_eq_or rfl,
    by rw [BitVec.toNat_setWidth_of_le (by decide), packetNodeType_toNat],
    by rw [BitVec.toNat_setWidth_of_le (by decide), packetOctave_toNat],
    by rw [BitVec.toNat_setWidth_of_le (by decide), packetPayload_toNat]⟩

end Sys2Proof.Machine

/-! ### The obligations -/

namespace Sys2Proof.BitPacket

open Sys2Proof.Machine

/-- Settles O16: the range test of R50 decides between its two clauses. -/
theorem packResult : Obligations.PackResult := by
  unfold Obligations.PackResult
  intro nt8 oct8 pay12 s
  refine ⟨decodeCmd_of_encodeCmd (encodeCmd_pack nt8 oct8 pay12), fun hfits => ?fits, fun hrange => ?range⟩
  case fits => rw [exec_pack, packResult_of_fits hfits, answer_ret]
  case range => rw [exec_pack, packResult_of_not_fits hrange, answer_raise, Status.code]

/-- Settles O17. -/
theorem unpackResult : Obligations.UnpackResult := by
  unfold Obligations.UnpackResult
  intro pkt s
  refine ⟨decodeCmd_of_encodeCmd (encodeCmd_unpack pkt), ?_⟩
  rw [exec_unpack, unpackResult_eq_ret, answer_ret]

/-- Settles O28: PACK and UNPACK are the two readings of one number, `nt * 2 ^ 10 + oct * 2 ^ 8 + pay`. -/
theorem packAndUnpackRoundTrip : Obligations.PackAndUnpackRoundTrip := by
  unfold Obligations.PackAndUnpackRoundTrip
  refine ⟨fun p s => ?packOfUnpack, fun nt8 oct8 pay12 s hfits => ?unpackOfPack⟩
  case packOfUnpack =>
    obtain ⟨d, nt8, oct8, pay12, hunpack, hword, hnt, hoct, hpay⟩ := exists_pack_operands_of_unpack p
    refine ⟨d, .pack nt8 oct8 pay12, by rw [exec_unpack, hunpack, answer_ret], decodeCmd_of_encodeCmd hword, rfl,
      fun hvalid => ?valid, fun hinvalid => ?invalid⟩
    case valid =>
      have hp : nt8.toNat * 2 ^ 10 + oct8.toNat * 2 ^ 8 + pay12.toNat = p.toNat := by omega
      rw [exec_pack, packResult_of_fits (by omega), hp, BitVec.ofNat_toNat, answer_ret]
    case invalid => rw [exec_pack, packResult_of_not_fits (by omega), answer_raise, Status.code]
  case unpackOfPack =>
    obtain ⟨p, hp⟩ : ∃ p : Packet, p.toNat = nt8.toNat * 2 ^ 10 + oct8.toNat * 2 ^ 8 + pay12.toNat :=
      ⟨_, mkPacket_slices_toNat hfits⟩
    have hnt : p.toNat / 2 ^ 10 = nt8.toNat := by omega
    have hoct : p.toNat / 2 ^ 8 % 4 = oct8.toNat := by omega
    have hpay : p.toNat % 256 = pay12.toNat := by omega
    refine ⟨p, ?_, ?_⟩
    · rw [exec_pack, packResult_of_fits hfits, ← hp, BitVec.ofNat_toNat, answer_ret]
    · rw [exec_unpack, unpackResult_eq_ret, hnt, hoct, hpay, answer_ret]

end Sys2Proof.BitPacket

/-! ## The glyph ROM: LOOKUP, LOOKUP_RC and RLOOKUP (41_glyph_rom.md) -/

namespace Sys2Proof.Machine

/-! ### Their words as numbers (30_encoding.md R39, R42, R43) -/

theorem encodeCmd_lookup (t : TableId) (i : BitVec 10) :
    encodeCmd (.lookup t i) = BitVec.ofNat 32 (0x30000000 + t.toNat * 2 ^ 10 + i.toNat) :=
  congrArg (BitVec.ofNat 32) (by simp [concatNat]; omega)

theorem encodeCmd_lookupRc (t : TableId) (row col : BitVec 5) :
    encodeCmd (.lookupRc t row col)
      = BitVec.ofNat 32 (0x40000000 + t.toNat * 2 ^ 10 + row.toNat * 2 ^ 5 + col.toNat) :=
  congrArg (BitVec.ofNat 32) (by simp [concatNat]; omega)

theorem encodeCmd_rlookup (t : TableId) (g : GlyphId) :
    encodeCmd (.rlookup t g) = BitVec.ofNat 32 (0x50000000 + t.toNat * 2 ^ 10 + g.toNat * 2 ^ 5) :=
  congrArg (BitVec.ofNat 32) (by simp [concatNat]; omega)

/-! ### What they answer, by the cell that the operands name -/

theorem lookupResult_of_cell {t : TableId} {i : BitVec 10} {c : CellIndex} (hc : cellIndex? i = some c) :
    lookupResult t i
      = ret (BitVec.ofNat 32 (c.val / 23 * 2 ^ 10 + c.val % 23 * 2 ^ 5 + (rom t c).toNat)) 0 := by
  rw [lookupResult, hc]
  refine congrArg (fun n => ret (BitVec.ofNat 32 n) 0) ?_
  simp [concatNat]
  omega

theorem lookupResult_of_no_cell {t : TableId} {i : BitVec 10} (hc : cellIndex? i = none) :
    lookupResult t i = raise .indexOutOfRange := by
  rw [lookupResult, hc]

theorem lookupRcResult_of_cell {t : TableId} {row col : BitVec 5} {c : CellIndex} (hc : cellAt? row col = some c) :
    lookupRcResult t row col = ret (BitVec.ofNat 32 (c.val * 2 ^ 5 + (rom t c).toNat)) 0 := by
  rw [lookupRcResult, hc]
  refine congrArg (fun n => ret (BitVec.ofNat 32 n) 0) ?_
  simp [concatNat]

theorem lookupRcResult_of_no_cell {t : TableId} {row col : BitVec 5} (hc : cellAt? row col = none) :
    lookupRcResult t row col = raise .indexOutOfRange := by
  rw [lookupRcResult, hc]

/-- A row and a column below 23 name a cell (20_memory.md R21). -/
theorem exists_cellAt?_eq_some {row col : BitVec 5} (h : row.toNat ≤ 22 ∧ col.toNat ≤ 22) :
    ∃ c : CellIndex, cellAt? row col = some c ∧ c.val = row.toNat * 23 + col.toNat :=
  ⟨⟨row.toNat * 23 + col.toNat, by omega⟩, by simp [h], rfl⟩

/-- The test of `cellsHolding`, as arithmetic (41_glyph_rom.md R61). -/
theorem rom_beq_iff (t : TableId) (g : GlyphId) (i : CellIndex) : (rom t i == g) = true ↔ i.val % 21 = g.toNat := by
  rw [beq_iff_eq, ← BitVec.toNat_inj, rom_toNat]

theorem cellsHolding_length (t : TableId) (g : GlyphId) :
    (cellsHolding t g).length = ((Finset.range 529).filter fun i => i % 21 = g.toNat).card :=
  cellsWhere_length _ _ (rom_beq_iff t g)

theorem getLsbD_cellSet_cellsHolding (t : TableId) (g : GlyphId) (i : Nat) :
    (cellSet (cellsHolding t g)).getLsbD i = decide (i < 529 ∧ i % 21 = g.toNat) :=
  getLsbD_cellSet_cellsWhere _ (· % 21 = g.toNat) (rom_beq_iff t g) i

theorem rlookupResult_of_glyph {t : TableId} {g : GlyphId} (hg : g.toNat ≤ 20) :
    rlookupResult t g = ret (BitVec.ofNat 32 (cellsHolding t g).length) (cellSet (cellsHolding t g)) :=
  if_pos ((isGlyph_iff g).2 hg)

theorem rlookupResult_of_no_glyph {t : TableId} {g : GlyphId} (hg : 20 < g.toNat) :
    rlookupResult t g = raise .malformedGlyphTriplet :=
  if_neg (by rw [isGlyph_iff]; omega)

end Sys2Proof.Machine

/-! ### The obligations -/

namespace Sys2Proof.GlyphRom

open Sys2Proof.Machine

/-- Settles O18: a 10-bit index up to 528 names the cell that it spells, any other names none. -/
theorem lookupResult : Obligations.LookupResult := by
  unfold Obligations.LookupResult
  intro t i s
  refine ⟨decodeCmd_of_encodeCmd (encodeCmd_lookup t i), fun hi => ?cell, fun hi => ?range⟩
  case cell => rw [exec_lookup, lookupResult_of_cell (cellIndex?_of_le hi), rom_toNat, answer_ret]
  case range => rw [exec_lookup, lookupResult_of_no_cell (cellIndex?_of_lt hi), answer_raise, Status.code]

/-- Settles O19: a row and a column up to 22 name the cell `row * 23 + col`, any others name none. -/
theorem lookupRcResult : Obligations.LookupRcResult := by
  unfold Obligations.LookupRcResult
  intro t row col s
  refine ⟨decodeCmd_of_encodeCmd (encodeCmd_lookupRc t row col), fun hcell => ?cell, fun hrange => ?range⟩
  case cell =>
    obtain ⟨c, hc, hval⟩ := exists_cellAt?_eq_some hcell
    rw [exec_lookupRc, lookupRcResult_of_cell hc, rom_toNat, hval, answer_ret]
  case range =>
    rw [exec_lookupRc, lookupRcResult_of_no_cell ((cellAt?_eq_none row col).2 hrange), answer_raise, Status.code]

/-- Settles O20: a cell holds `g` exactly when its index is `g` modulo 21, which gives both the size and the bits. -/
theorem rlookupResult : Obligations.RlookupResult := by
  unfold Obligations.RlookupResult
  intro t g s
  refine ⟨decodeCmd_of_encodeCmd (encodeCmd_rlookup t g), fun hg => ?glyph, fun hg => ?noGlyph⟩
  case glyph =>
    refine ⟨cellSet (cellsHolding t g), ?_, getLsbD_cellSet_cellsHolding t g⟩
    rw [exec_rlookup, rlookupResult_of_glyph hg, cellsHolding_length, answer_ret]
  case noGlyph => rw [exec_rlookup, rlookupResult_of_no_glyph hg, answer_raise, Status.code]

/-- Settles O30: both commands read the cell that row and column name; dividing its index `row * 23 + col` by 23 gives
the row, with the column as remainder. -/
theorem rowAndColumnNameTheSameCell : Obligations.RowAndColumnNameTheSameCell := by
  unfold Obligations.RowAndColumnNameTheSameCell
  intro t row col s hcell
  obtain ⟨c, hc, hval⟩ := exists_cellAt?_eq_some hcell
  have hindex : cellIndex? (cellBits c) = some c := by simp
  have hrow : c.val / 23 = row.toNat := by omega
  have hcol : c.val % 23 = col.toNat := by omega
  refine ⟨cellBits c, rom t c, ?glyphId, (cellBits_toNat c).trans hval, ?lookupRc, ?lookup⟩
  case glyphId =>
    rw [rom_toNat]
    omega
  case lookupRc => rw [exec_lookupRc, lookupRcResult_of_cell hc, cellBits_toNat, answer_ret]
  case lookup => rw [exec_lookup, lookupResult_of_cell hindex, hrow, hcol, answer_ret]

end Sys2Proof.GlyphRom

/-! ## Packet to cell address and back: TO_ADDR and FROM_ADDR (42_glyph_mapper.md) -/

namespace Sys2Proof.Machine

/-! ### Their words as numbers (30_encoding.md R38, R41) -/

theorem encodeCmd_toAddr (pkt : Packet) : encodeCmd (.toAddr pkt) = BitVec.ofNat 32 (0x60000000 + pkt.toNat) :=
  congrArg (BitVec.ofNat 32) (by simp [concatNat])

theorem encodeCmd_fromAddr (nt8 : BitVec 8) (t : TableId) (i : BitVec 10) :
    encodeCmd (.fromAddr nt8 t i)
      = BitVec.ofNat 32 (0x70000000 + nt8.toNat * 2 ^ 20 + t.toNat * 2 ^ 10 + i.toNat) :=
  congrArg (BitVec.ofNat 32) (by simp [concatNat]; omega)

/-! ### What they answer -/

/-- The address of a packet, as arithmetic on the packet's number (42_glyph_mapper.md R70, R71). -/
theorem mkAddr12_of_packet_toNat (pkt : Packet) :
    (mkAddr12 (packetOctave pkt) (reduce (packetPayload pkt))).toNat
      = pkt.toNat / 2 ^ 8 % 4 * 2 ^ 10 + pkt.toNat % 256 := by
  rw [mkAddr12_toNat, packetOctave_toNat, reduce_val, packetPayload_toNat]

theorem toAddrResult_of_valid {pkt : Packet} (hvalid : pkt.toNat / 2 ^ 10 ≤ 5) :
    toAddrResult pkt
      = ret (BitVec.ofNat 32 (pkt.toNat / 2 ^ 8 % 4 * 2 ^ 10 + pkt.toNat % 256)) 0 := by
  rw [toAddrResult, if_pos ((validPacket_iff pkt).2 hvalid), ← BitVec.ofNat_toNat, mkAddr12_of_packet_toNat]

theorem toAddrResult_of_not_valid {pkt : Packet} (hinvalid : 5 < pkt.toNat / 2 ^ 10) :
    toAddrResult pkt = raise .fieldOutOfRange :=
  if_neg (by rw [validPacket_iff]; omega)

/-- A node type of any width and a cell index, both in range, lose no bit when they are cut to the widths of a
packet's fields (42_glyph_mapper.md R72). -/
theorem mkPacket_of_cell_toNat {n : Nat} {nt : BitVec n} {t : TableId} {c : CellIndex}
    (hfits : nt.toNat ≤ 5 ∧ c.val ≤ 255) :
    (mkPacket (nt.extractLsb' 0 3) t (cellPayload c)).toNat = nt.toNat * 2 ^ 10 + t.toNat * 2 ^ 8 + c.val := by
  rw [mkPacket_toNat, extractLsb'_toNat_div, cellPayload_toNat]
  omega

/-- The field test of R72, as arithmetic. -/
theorem fromAddr_field_test_iff (nt8 : BitVec 8) (c : CellIndex) :
    (nt8.toNat > 5 ∨ ¬ fitsPayload c) ↔ 5 < nt8.toNat ∨ 255 < c.val := by
  rw [fitsPayload_iff, Nat.not_le]

theorem fromAddrResult_of_no_cell {nt8 : BitVec 8} {t : TableId} {i : BitVec 10} (hc : cellIndex? i = none) :
    fromAddrResult nt8 t i = raise .indexOutOfRange := by
  rw [fromAddrResult, hc]

theorem fromAddrResult_of_not_fits {nt8 : BitVec 8} {t : TableId} {i : BitVec 10} {c : CellIndex}
    (hc : cellIndex? i = some c) (hrange : 5 < nt8.toNat ∨ 255 < c.val) :
    fromAddrResult nt8 t i = raise .fieldOutOfRange := by
  rw [fromAddrResult, hc]
  exact if_pos ((fromAddr_field_test_iff nt8 c).2 hrange)

theorem fromAddrResult_of_fits {nt8 : BitVec 8} {t : TableId} {i : BitVec 10} {c : CellIndex}
    (hc : cellIndex? i = some c) (hfits : nt8.toNat ≤ 5 ∧ c.val ≤ 255) :
    fromAddrResult nt8 t i = ret (BitVec.ofNat 32 (nt8.toNat * 2 ^ 10 + t.toNat * 2 ^ 8 + c.val)) 0 := by
  rw [fromAddrResult, hc, ← mkPacket_of_cell_toNat hfits, BitVec.ofNat_toNat]
  exact if_neg (by rw [fromAddr_field_test_iff]; omega)

end Sys2Proof.Machine

/-! ### The obligations -/

namespace Sys2Proof.GlyphMapper

open Sys2Proof.Machine

/-- Settles O21: the address is read off octave and payload alone; the NodeType decides only whether there is one. -/
theorem toAddrResult : Obligations.ToAddrResult := by
  unfold Obligations.ToAddrResult
  intro pkt s
  refine ⟨decodeCmd_of_encodeCmd (encodeCmd_toAddr pkt), fun hvalid => ?valid, fun hinvalid => ?invalid⟩
  case valid => rw [exec_toAddr, toAddrResult_of_valid hvalid, answer_ret]
  case invalid => rw [exec_toAddr, toAddrResult_of_not_valid hinvalid, answer_raise, Status.code]

/-- Settles O22: an index up to 528 names a cell, and only then are the node type and the width of the index tested. -/
theorem fromAddrResult : Obligations.FromAddrResult := by
  unfold Obligations.FromAddrResult
  intro nt8 t i s
  refine ⟨decodeCmd_of_encodeCmd (encodeCmd_fromAddr nt8 t i), fun hi => ?noCell,
    fun ⟨hi, hrange⟩ => ?range, fun hfits => ?packet⟩
  case noCell => rw [exec_fromAddr, fromAddrResult_of_no_cell (cellIndex?_of_lt hi), answer_raise, Status.code]
  case range =>
    rw [exec_fromAddr, fromAddrResult_of_not_fits (cellIndex?_of_le hi) hrange, answer_raise, Status.code]
  case packet =>
    have hi : i.toNat ≤ 528 := by omega
    rw [exec_fromAddr, fromAddrResult_of_fits (cellIndex?_of_le hi) hfits, answer_ret]

end Sys2Proof.GlyphMapper

/-! ## The checksum engine: CHK_COMPUTE and CHK_VERIFY (43_checksum.md) -/

namespace Sys2Proof.Machine

/-! ### Their words as numbers (30_encoding.md R39, R40) -/

theorem encodeCmd_chkCompute (t : TableId) (i : BitVec 10) :
    encodeCmd (.chkCompute t i) = BitVec.ofNat 32 (0x80000000 + t.toNat * 2 ^ 10 + i.toNat) :=
  congrArg (BitVec.ofNat 32) (by simp [concatNat]; omega)

theorem encodeCmd_chkVerify (c : Checksum) (t : TableId) (i : BitVec 10) :
    encodeCmd (.chkVerify c t i)
      = BitVec.ofNat 32 (0x90000000 + c.toNat * 2 ^ 12 + t.toNat * 2 ^ 10 + i.toNat) :=
  congrArg (BitVec.ofNat 32) (by simp [concatNat]; omega)

/-! ### What they answer, by the cell that the index names -/

/-- The test of CHK_VERIFY, as arithmetic (43_checksum.md R81, R83). -/
theorem chk_eq_iff (cell : CellIndex) (c : Checksum) :
    chk cell = c ↔ ((cell.val + 326) % 529) % 16 = c.toNat := by
  rw [← BitVec.toNat_inj, chk_toNat]

theorem chkComputeResult_of_cell {t : TableId} {i : BitVec 10} {cell : CellIndex} (hcell : cellIndex? i = some cell) :
    chkComputeResult t i = ret (BitVec.ofNat 32 (((cell.val + 326) % 529) % 16)) 0 := by
  rw [chkComputeResult, hcell, ← chk_toNat, BitVec.ofNat_toNat]

theorem chkComputeResult_of_no_cell {t : TableId} {i : BitVec 10} (hcell : cellIndex? i = none) :
    chkComputeResult t i = raise .indexOutOfRange := by
  rw [chkComputeResult, hcell]

theorem chkVerifyResult_of_match {c : Checksum} {t : TableId} {i : BitVec 10} {cell : CellIndex}
    (hcell : cellIndex? i = some cell) (hmatch : chk cell = c) : chkVerifyResult c t i = ret 1 0 := by
  rw [chkVerifyResult, hcell]
  exact congrArg (ret · 0) (if_pos hmatch)

theorem chkVerifyResult_of_mismatch {c : Checksum} {t : TableId} {i : BitVec 10} {cell : CellIndex}
    (hcell : cellIndex? i = some cell) (hmismatch : chk cell ≠ c) : chkVerifyResult c t i = ret 0 0 := by
  rw [chkVerifyResult, hcell]
  exact congrArg (ret · 0) (if_neg hmismatch)

theorem chkVerifyResult_of_no_cell {c : Checksum} {t : TableId} {i : BitVec 10} (hcell : cellIndex? i = none) :
    chkVerifyResult c t i = raise .indexOutOfRange := by
  rw [chkVerifyResult, hcell]

end Sys2Proof.Machine

/-! ### The obligations -/

namespace Sys2Proof.ChecksumEngine

open Sys2Proof.Machine

/-- Settles O23: a 10-bit index up to 528 names a cell, whose checksum is R81's number; any other names none. -/
theorem chkComputeResult : Obligations.ChkComputeResult := by
  unfold Obligations.ChkComputeResult
  intro t i s
  refine ⟨decodeCmd_of_encodeCmd (encodeCmd_chkCompute t i), fun hi => ?cell, fun hi => ?range⟩
  case cell => rw [exec_chkCompute, chkComputeResult_of_cell (cellIndex?_of_le hi), answer_ret]
  case range => rw [exec_chkCompute, chkComputeResult_of_no_cell (cellIndex?_of_lt hi), answer_raise, Status.code]

/-- Settles O24: for an index that names a cell the answer is the comparison of two numbers below 16, R81's and the
operand's, and both outcomes of it are `OK`. -/
theorem chkVerifyResult : Obligations.ChkVerifyResult := by
  unfold Obligations.ChkVerifyResult
  intro c t i s
  refine ⟨decodeCmd_of_encodeCmd (encodeCmd_chkVerify c t i), fun ⟨hi, heq⟩ => ?verified,
    fun ⟨hi, hne⟩ => ?mismatch, fun hi => ?range⟩
  case verified =>
    rw [exec_chkVerify, chkVerifyResult_of_match (cellIndex?_of_le hi) ((chk_eq_iff _ c).2 heq), answer_ret]
  case mismatch =>
    rw [exec_chkVerify, chkVerifyResult_of_mismatch (cellIndex?_of_le hi) (mt (chk_eq_iff _ c).1 hne), answer_ret]
  case range => rw [exec_chkVerify, chkVerifyResult_of_no_cell (cellIndex?_of_lt hi), answer_raise, Status.code]

end Sys2Proof.ChecksumEngine

/-! ## The encoder and the decoder: ENCODE, DECODE and RESOLVE (44_encoder_decoder.md) -/

namespace Sys2Proof.Machine

/-! ### Their words as numbers (30_encoding.md R38, R44, R45) -/

theorem encodeCmd_encode (pkt : Packet) : encodeCmd (.encode pkt) = BitVec.ofNat 32 (0xA0000000 + pkt.toNat) :=
  congrArg (BitVec.ofNat 32) (by simp [concatNat])

theorem encodeCmd_decode (ntg : GlyphId) (t : TableId) (i : BitVec 10) (g cg : GlyphId) :
    encodeCmd (.decode ntg t i g cg)
      = BitVec.ofNat 32
          (0xB0000000 + ntg.toNat * 2 ^ 22 + t.toNat * 2 ^ 20 + i.toNat * 2 ^ 10 + g.toNat * 2 ^ 5 + cg.toNat) :=
  congrArg (BitVec.ofNat 32) (by simp [concatNat]; omega)

theorem encodeCmd_resolve (t : TableId) (g cg : GlyphId) :
    encodeCmd (.resolve t g cg)
      = BitVec.ofNat 32 (0xC0000000 + t.toNat * 2 ^ 10 + g.toNat * 2 ^ 5 + cg.toNat) :=
  congrArg (BitVec.ofNat 32) (by simp [concatNat]; omega)

/-! ### What ENCODE answers -/

/-- The triplet of a packet, as arithmetic on the packet's number (44_encoder_decoder.md R92). -/
theorem packetTriplet_toNat (pkt : Packet) :
    (packetTriplet pkt).toNat
      = pkt.toNat / 2 ^ 10 * 2 ^ 22 + pkt.toNat / 2 ^ 8 % 4 * 2 ^ 20 + pkt.toNat % 256 * 2 ^ 10
        + pkt.toNat % 256 % 21 * 2 ^ 5 + ((pkt.toNat % 256 + 326) % 529) % 16 := by
  rw [packetTriplet, mkTriplet_toNat, marker_toNat, packetNodeType_toNat, packetOctave_toNat, cellBits_toNat,
    rom_toNat, checksumGlyph_toNat, chk_toNat, reduce_val, packetPayload_toNat]

theorem encodeResult_of_valid {pkt : Packet} (hvalid : pkt.toNat / 2 ^ 10 ≤ 5) :
    encodeResult pkt
      = ret (BitVec.ofNat 32
          (pkt.toNat / 2 ^ 10 * 2 ^ 22 + pkt.toNat / 2 ^ 8 % 4 * 2 ^ 20 + pkt.toNat % 256 * 2 ^ 10
            + pkt.toNat % 256 % 21 * 2 ^ 5 + ((pkt.toNat % 256 + 326) % 529) % 16)) 0 := by
  rw [encodeResult, if_pos ((validPacket_iff pkt).2 hvalid), ← BitVec.ofNat_toNat, packetTriplet_toNat]

theorem encodeResult_of_not_valid {pkt : Packet} (hinvalid : 5 < pkt.toNat / 2 ^ 10) :
    encodeResult pkt = raise .fieldOutOfRange :=
  if_neg (by rw [validPacket_iff]; omega)

/-! ### What DECODE answers, by the symbols and by the cell that the index names -/

/-- The symbol test of DECODE, as arithmetic (44_encoder_decoder.md R93, its first check). -/
theorem decode_symbol_test_iff (ntg g cg : GlyphId) :
    (¬ isMarker ntg ∨ ¬ isGlyph g ∨ ¬ isChecksumGlyph cg) ↔ 5 < ntg.toNat ∨ 20 < g.toNat ∨ 15 < cg.toNat := by
  rw [isMarker_iff, isGlyph_iff, isChecksumGlyph_iff, Nat.not_le, Nat.not_le, Nat.not_le]

/-- A glyph up to 15 stands for the checksum value of its own number (44_encoder_decoder.md R91). -/
theorem chk_eq_glyphChecksum_iff {cg : GlyphId} (hcg : cg.toNat ≤ 15) (c : CellIndex) :
    chk c = glyphChecksum cg ↔ ((c.val + 326) % 529) % 16 = cg.toNat := by
  rw [chk_eq_iff, glyphChecksum_toNat, Nat.mod_eq_of_lt (Nat.lt_succ_of_le hcg)]

theorem rom_eq_iff (t : TableId) (g : GlyphId) (c : CellIndex) : rom t c = g ↔ c.val % 21 = g.toNat := by
  rw [← BitVec.toNat_inj, rom_toNat]

theorem decodeResult_of_no_symbol {ntg : GlyphId} {t : TableId} {i : BitVec 10} {g cg : GlyphId}
    (hsym : 5 < ntg.toNat ∨ 20 < g.toNat ∨ 15 < cg.toNat) :
    decodeResult ntg t i g cg = raise .malformedGlyphTriplet :=
  if_pos ((decode_symbol_test_iff ntg g cg).2 hsym)

section

variable {ntg : GlyphId} {t : TableId} {i : BitVec 10} {g cg : GlyphId}
  (hsym : ntg.toNat ≤ 5 ∧ g.toNat ≤ 20 ∧ cg.toNat ≤ 15)

include hsym

theorem decodeResult_of_no_cell (hc : cellIndex? i = none) :
    decodeResult ntg t i g cg = raise .indexOutOfRange := by
  rw [decodeResult, if_neg (by rw [decode_symbol_test_iff]; omega), hc]

/-- The last three checks of R93 and the packet, as arithmetic on the cell that the index names. -/
theorem decodeResult_of_cell {c : CellIndex} (hc : cellIndex? i = some c) :
    decodeResult ntg t i g cg
      = if c.val % 21 ≠ g.toNat then raise .malformedGlyphTriplet
        else if ((c.val + 326) % 529) % 16 ≠ cg.toNat then raise .checksumMismatch
        else if 255 < c.val then raise .fieldOutOfRange
        else ret (BitVec.ofNat 32 (ntg.toNat * 2 ^ 10 + t.toNat * 2 ^ 8 + c.val)) 0 := by
  obtain ⟨hntg, hg, hcg⟩ := hsym
  rw [decodeResult, if_neg (by rw [decode_symbol_test_iff]; omega), hc]
  refine if_congr (rom_eq_iff t g c).not rfl (if_congr (chk_eq_glyphChecksum_iff hcg c).not rfl ?payload)
  case payload =>
    refine ite_congr (by rw [fitsPayload_iff, Nat.not_le]) (fun _ => rfl) fun hpay => ?_
    rw [← mkPacket_of_cell_toNat ⟨hntg, Nat.not_lt.1 hpay⟩, BitVec.ofNat_toNat]

end

/-! ### The cells of a set builder, from the set of numbers that they are -/

section

variable {p : CellIndex → Bool} {S : Finset Nat} (hS : ∀ n ∈ S, n < 529) (hp : ∀ i : CellIndex, p i = true ↔ i.val ∈ S)

include hS hp

theorem cellsWhere_length_eq_card : (cellsWhere p).length = S.card := by
  rw [cellsWhere_length p (· ∈ S) hp, Finset.filter_mem_eq_inter,
    Finset.inter_eq_right.2 fun n hn => Finset.mem_range.2 (hS n hn)]

theorem getLsbD_cellSet_eq_mem (n : Nat) : (cellSet (cellsWhere p)).getLsbD n = decide (n ∈ S) := by
  rw [getLsbD_cellSet_cellsWhere p (· ∈ S) hp]
  exact decide_eq_decide.2 (and_iff_right_of_imp (hS n))

theorem cellsWhere_eq_nil_iff : cellsWhere p = [] ↔ S = ∅ := by
  rw [← List.length_eq_zero_iff, cellsWhere_length_eq_card hS hp, Finset.card_eq_zero]

theorem lowest_cellsWhere_isLeast (hne : cellsWhere p ≠ []) : IsLeast (S : Set Nat) (lowest (cellsWhere p)).val :=
  ⟨(hp _).1 (lowest_mem p hne), fun n hn => lowest_le p ⟨n, hS n hn⟩ ((hp _).2 hn)⟩

end

/-! ### What RESOLVE answers -/

/-- The symbol test of RESOLVE, as arithmetic (44_encoder_decoder.md R94). -/
theorem resolve_symbol_test_iff (g cg : GlyphId) :
    (¬ isGlyph g ∨ ¬ isChecksumGlyph cg) ↔ 20 < g.toNat ∨ 15 < cg.toNat := by
  rw [isGlyph_iff, isChecksumGlyph_iff, Nat.not_le, Nat.not_le]

theorem resolveResult_of_no_symbol {t : TableId} {g cg : GlyphId} (hsym : 20 < g.toNat ∨ 15 < cg.toNat) :
    resolveResult t g cg = raise .malformedGlyphTriplet :=
  if_pos ((resolve_symbol_test_iff g cg).2 hsym)

theorem resolveResult_of_symbols {t : TableId} {g cg : GlyphId} {cells : List CellIndex}
    (hsym : g.toNat ≤ 20 ∧ cg.toNat ≤ 15) (hcells : candidates t g (glyphChecksum cg) = cells) :
    resolveResult t g cg
      = ret (BitVec.ofNat 32 ((reach cells).toNat * 2 ^ 20 + (lowest cells).val * 2 ^ 10 + cells.length))
          (cellSet cells) := by
  have hlen : cells.length ≤ 529 := hcells ▸ cellsWhere_length_le _
  rw [resolveResult, if_neg (by rw [resolve_symbol_test_iff]; omega), hcells]
  refine congrArg (fun n => ret (BitVec.ofNat 32 n) (cellSet cells)) ?_
  simp [concatNat]
  omega

/-- The test of `candidates`, as arithmetic (44_encoder_decoder.md R94, with R61 and R81). -/
theorem candidate_test_iff (t : TableId) (g : GlyphId) {cg : GlyphId} (hcg : cg.toNat ≤ 15) (i : CellIndex) :
    (rom t i == g && chk i == glyphChecksum cg) = true
      ↔ i.val % 21 = g.toNat ∧ ((i.val + 326) % 529) % 16 = cg.toNat := by
  rw [Bool.and_eq_true, rom_beq_iff, beq_iff_eq, chk_eq_glyphChecksum_iff hcg]

theorem reach_toNat_of_ne_nil {cells : List CellIndex} (h : cells ≠ []) :
    (reach cells).toNat = if (lowest cells).val ≤ 255 then 1 else 0 := by
  rw [reach, decide_eq_true (List.length_pos_iff.2 h), Bool.true_and, fitsPayload, Bool.toNat, Bool.cond_decide]

/-! ### The stages of ENCODE (44_encoder_decoder.md R92) -/

/-- The field that spells a cell names it. -/
@[simp] theorem cellIndex?_cellBits (c : CellIndex) : cellIndex? (cellBits c) = some c := by
  rw [cellIndex?_eq_some, cellBits_toNat]

/-- The low five bits of LOOKUP's data word are the glyph (41_glyph_rom.md R62). -/
theorem exists_lookupResult_glyph {t : TableId} {i : BitVec 10} {c : CellIndex} (hc : cellIndex? i = some c) :
    ∃ d : Word, lookupResult t i = ret d 0 ∧ d.toNat % 32 = c.val % 21 := by
  refine ⟨_, lookupResult_of_cell hc, ?_⟩
  rw [BitVec.toNat_ofNat, rom_toNat]
  omega

/-- CHK_COMPUTE's data word is the checksum (43_checksum.md R82). -/
theorem exists_chkComputeResult_checksum {t : TableId} {i : BitVec 10} {c : CellIndex} (hc : cellIndex? i = some c) :
    ∃ d : Word, chkComputeResult t i = ret d 0 ∧ d.toNat = ((c.val + 326) % 529) % 16 := by
  refine ⟨_, chkComputeResult_of_cell hc, ?_⟩
  rw [BitVec.toNat_ofNat]
  omega

end Sys2Proof.Machine

/-! ### The obligations -/

namespace Sys2Proof.EncoderDecoder

open Sys2Proof.Machine

/-- Settles O25: the NodeType decides whether there is a triplet, whose fields are then all read off the packet. -/
theorem encodeResult : Obligations.EncodeResult := by
  unfold Obligations.EncodeResult
  intro pkt s
  refine ⟨decodeCmd_of_encodeCmd (encodeCmd_encode pkt), fun hvalid => ?valid, fun hinvalid => ?invalid⟩
  case valid => rw [exec_encode, encodeResult_of_valid hvalid, answer_ret]
  case invalid => rw [exec_encode, encodeResult_of_not_valid hinvalid, answer_raise, Status.code]

/-- Settles O26: once the symbols are found good and the index names a cell, each clause follows one branch of
`decodeResult_of_cell`. -/
theorem decodeResult : Obligations.DecodeResult := by
  unfold Obligations.DecodeResult
  intro ntg t i g cg s
  refine ⟨decodeCmd_of_encodeCmd (encodeCmd_decode ntg t i g cg), fun hsym => ?noSymbol, fun hsym =>
    ⟨fun hi => ?noCell, fun ⟨hi, hglyph⟩ => ?glyph, fun ⟨hi, hglyph, hchk⟩ => ?checksum,
      fun ⟨hpay, hi, hglyph, hchk⟩ => ?payload, fun ⟨hi, hglyph, hchk⟩ => ?packet⟩⟩
  case noSymbol => rw [exec_decode, decodeResult_of_no_symbol hsym, answer_raise, Status.code]
  case noCell => rw [exec_decode, decodeResult_of_no_cell hsym (cellIndex?_of_lt hi), answer_raise, Status.code]
  case glyph =>
    rw [exec_decode, decodeResult_of_cell hsym (cellIndex?_of_le hi), if_pos hglyph, answer_raise, Status.code]
  case checksum =>
    rw [exec_decode, decodeResult_of_cell hsym (cellIndex?_of_le hi), if_neg (not_not.2 hglyph), if_pos hchk,
      answer_raise, Status.code]
  case payload =>
    rw [exec_decode, decodeResult_of_cell hsym (cellIndex?_of_le hi), if_neg (not_not.2 hglyph),
      if_neg (not_not.2 hchk), if_pos hpay, answer_raise, Status.code]
  case packet =>
    have hcell : i.toNat ≤ 528 := by omega
    rw [exec_decode, decodeResult_of_cell hsym (cellIndex?_of_le hcell), if_neg (not_not.2 hglyph),
      if_neg (not_not.2 hchk), if_neg (Nat.not_lt.2 hi), answer_ret]

/-- Settles O27: the candidates are the members of `S`, so they have its size, its bits, and its least member first. -/
theorem resolveResult : Obligations.ResolveResult := by
  unfold Obligations.ResolveResult
  intro t g cg s
  refine ⟨decodeCmd_of_encodeCmd (encodeCmd_resolve t g cg), fun hsym S hmem => ?symbols, fun hsym => ?noSymbol⟩
  case noSymbol => rw [exec_resolve, resolveResult_of_no_symbol hsym, answer_raise, Status.code]
  case symbols =>
    have hS : ∀ n ∈ S, n < 529 := fun n hn => ((hmem n).1 hn).1
    have hp (i : CellIndex) : (rom t i == g && chk i == glyphChecksum cg) = true ↔ i.val ∈ S := by
      rw [candidate_test_iff t g hsym.2, hmem, and_iff_right i.isLt]
    have hnil : candidates t g (glyphChecksum cg) = [] ↔ S = ∅ := cellsWhere_eq_nil_iff hS hp
    have hcard : (candidates t g (glyphChecksum cg)).length = S.card := cellsWhere_length_eq_card hS hp
    refine ⟨(lowest (candidates t g (glyphChecksum cg))).val, (reach (candidates t g (glyphChecksum cg))).toNat, _,
      ?answer, getLsbD_cellSet_eq_mem hS hp, fun hempty => ?empty, fun hne => ?nonempty⟩
    case answer => rw [exec_resolve, resolveResult_of_symbols hsym rfl, hcard, answer_ret, candidates]
    case empty =>
      rw [hnil.2 hempty]
      exact ⟨rfl, rfl⟩
    case nonempty =>
      have hcells := mt hnil.1 hne
      obtain ⟨hlow, hleast⟩ := lowest_cellsWhere_isLeast hS hp hcells
      exact ⟨hlow, fun n hn => hleast hn, reach_toNat_of_ne_nil hcells⟩

/-- Settles O36: the three stages and ENCODE all read the cell of the packet's octave and payload; LOOKUP's glyph is
what its data word leaves modulo 32. -/
theorem encodeIsTheCompositionOfItsStages : Obligations.EncodeIsTheCompositionOfItsStages := by
  unfold Obligations.EncodeIsTheCompositionOfItsStages
  intro p s hvalid
  have hc := cellIndex?_cellBits (reduce (packetPayload p))
  have hcell : (cellBits (reduce (packetPayload p))).toNat = p.toNat % 256 := by
    rw [cellBits_toNat, reduce_val, packetPayload_toNat]
  obtain ⟨look, hlookup, hglyph⟩ := exists_lookupResult_glyph (t := packetOctave p) hc
  obtain ⟨sum, hcompute, hsum⟩ := exists_chkComputeResult_checksum (t := packetOctave p) hc
  rw [reduce_val, packetPayload_toNat] at hglyph hsum
  refine ⟨packetOctave p, cellBits (reduce (packetPayload p)), look, sum, ?toAddr, ?lookup, ?chkCompute, ?encode⟩
  case toAddr => rw [exec_toAddr, toAddrResult_of_valid hvalid, packetOctave_toNat, hcell, answer_ret]
  case lookup => rw [exec_lookup, hlookup, answer_ret]
  case chkCompute => rw [exec_chkCompute, hcompute, answer_ret]
  case encode =>
    rw [exec_encode, encodeResult_of_valid hvalid, packetOctave_toNat, hcell, hglyph, hsum, answer_ret]

end Sys2Proof.EncoderDecoder

/-! ## The host's framing: split, encode and decode of a buffer (45_host_framing.md) -/

namespace Sys2Proof.Machine

/-! ### The units of a buffer (R101, R102) -/

/-- Bit `n` of a buffer's bit string, read as 0 past its end. -/
theorem bufferBits_getD_false (bytes : List (BitVec 8)) (n : Nat) :
    (bufferBits bytes).getD n false
      = (decide (n < 8 * bytes.length) && (bytes.getD (n / 8) 0).getLsbD (7 - n % 8)) := by
  by_cases hn : n < 8 * bytes.length
  · rw [bufferBits_getD bytes n hn, decide_eq_true hn, Bool.true_and]
  · rw [List.getD_eq_default _ _ (by rw [bufferBits_length]; omega), decide_eq_false hn, Bool.false_and]

@[simp] theorem splitBytes_snd (bytes : List (BitVec 8)) : (splitBytes bytes).2 = 8 * bytes.length :=
  bufferBits_length bytes

@[simp] theorem splitBytes_fst_length (bytes : List (BitVec 8)) :
    (splitBytes bytes).1.length = unitsNeeded (8 * bytes.length) := by
  simp [splitBytes]

theorem splitBytes_fst_getD {bytes : List (BitVec 8)} {m : Nat} (hm : m < unitsNeeded (8 * bytes.length)) :
    (splitBytes bytes).1.getD m 0 = splitUnit (bufferBits bytes) m := by
  simp [splitBytes, hm]

/-- Settles O44: a unit's bits are the buffer's, which `bufferBits_getD_false` gives. -/
theorem splitCutsTheBitString : Obligations.SplitCutsTheBitString := by
  unfold Obligations.SplitCutsTheBitString
  intro bytes
  refine ⟨splitBytes_snd bytes, splitBytes_fst_length bytes, fun m j hm hj => ?bits⟩
  case bits => rw [splitBytes_fst_getD hm, getLsbD_splitUnit _ _ _ hj, bufferBits_getD_false]

/-! ### What the host reads after a command -/

/-- The response read after a word was presented in one state is read after it in every state (20_memory.md R26). -/
theorem ask_of_present {w : Word} {s t : State} (h : present w s = .next t) (s' : State) :
    ask w s' = .ok (s'.setRsp t.rsp) := by
  obtain ⟨r, hcommand, hask⟩ := ask_answers w
  rw [present_eq_command, hcommand, answer, Host.Outcome.next.injEq] at h
  rw [hask, ← h, State.setRsp_rsp]

theorem ask_encodeCmd {i : Instr} {s : State} {r : Response} (h : exec i s = .next (s.setRsp r)) :
    ask (encodeCmd i) s = .ok (s.setRsp r) :=
  ask_of_present ((command_of_decode (decodingAnEncodedCommandReturnsIt i) s).trans h) s

/-! ### The loop of `encode` (R105, R109) -/

theorem exec_encode_of_valid {u : Packet} (hvalid : u.toNat / 2 ^ 10 ≤ 5) (core : State) :
    exec (.encode u) core = .next (core.setRsp (okResponse ((packetTriplet u).setWidth 32) 0)) := by
  rw [exec_encode, encodeResult, if_pos ((validPacket_iff u).2 hvalid), answer_ret]

theorem exec_encode_of_not_valid {u : Packet} (hinvalid : 5 < u.toNat / 2 ^ 10) (core : State) :
    exec (.encode u) core = .next (core.setRsp (errorResponse 1)) := by
  rw [exec_encode, encodeResult_of_not_valid hinvalid, answer_raise, Status.code]

/-- A triplet is read back whole from bits 26:0 of the data word. -/
theorem extractLsb'_setWidth_triplet (trip : Triplet) : (trip.setWidth 32).extractLsb' 0 27 = trip := by
  rw [← BitVec.setWidth_eq_extractLsb' (by decide), BitVec.setWidth_setWidth_of_le _ (by decide), BitVec.setWidth_eq]

theorem encodeUnits_cons_of_valid {u : Packet} (hvalid : u.toNat / 2 ^ 10 ≤ 5) (us : List Packet) (core : State) :
    encodeUnits (u :: us) core
      = (encodeUnits us (core.setRsp (okResponse ((packetTriplet u).setWidth 32) 0))).map (packetTriplet u :: ·) := by
  simp only [encodeUnits, ask_encodeCmd (exec_encode_of_valid hvalid core), State.setRsp_rsp, okResponse_status,
    okResponse_data, Status.code, extractLsb'_setWidth_triplet, if_true]
  cases encodeUnits us _ <;> rfl

theorem encodeUnits_cons_of_not_valid {u : Packet} (hinvalid : 5 < u.toNat / 2 ^ 10) (us : List Packet)
    (core : State) : encodeUnits (u :: us) core = .error (.status 1) := by
  simp [encodeUnits, ask_encodeCmd (exec_encode_of_not_valid hinvalid core), Status.code]

theorem encodeUnits_of_valid {us : List Packet} (h : ∀ u ∈ us, u.toNat / 2 ^ 10 ≤ 5) (core : State) :
    encodeUnits us core = .ok (us.map packetTriplet) := by
  induction us generalizing core with
  | nil => rfl
  | cons u us ih =>
    rw [List.forall_mem_cons] at h
    obtain ⟨hu, hus⟩ := h
    rw [encodeUnits_cons_of_valid hu, ih hus, List.map_cons, Except.map]

theorem encodeUnits_of_not_valid {us : List Packet} (h : ∃ u ∈ us, 5 < u.toNat / 2 ^ 10) (core : State) :
    encodeUnits us core = .error (.status 1) := by
  induction us generalizing core with
  | nil => simp at h
  | cons u us ih =>
    rcases Nat.lt_or_ge 5 (u.toNat / 2 ^ 10) with hinvalid | hvalid
    · exact encodeUnits_cons_of_not_valid hinvalid us core
    · have hrest := ((List.exists_mem_cons_iff ..).1 h).resolve_left (Nat.not_lt.2 hvalid)
      rw [encodeUnits_cons_of_valid hvalid, ih hrest, Except.map]

/-- The elements are the triplets, each beside its place in the list (R104). -/
theorem numberFrom_eq_mapIdx (m : Nat) (ts : List Triplet) :
    numberFrom m ts = ts.mapIdx fun k trip => .unit (m + k) trip := by
  induction ts generalizing m with
  | nil => rfl
  | cons t ts ih =>
    rw [numberFrom, ih, List.mapIdx_cons]
    simp [Nat.add_assoc, Nat.add_comm 1]

/-- Settles O45: each unit is answered for itself, whatever was asked before, so a buffer of valid units gives the list
of their triplets, and the first unit that is not valid ends the loop. -/
theorem encodeBufferNumbersItsTriplets : Obligations.EncodeBufferNumbersItsTriplets := by
  unfold Obligations.EncodeBufferNumbersItsTriplets
  intro bytes core
  refine ⟨fun hvalid => ?valid, fun hinvalid => ?invalid⟩
  case valid =>
    have hlength : (numberFrom 0 ((splitBytes bytes).1.map packetTriplet)).length = (splitBytes bytes).1.length := by
      rw [numberFrom_eq_mapIdx, List.length_mapIdx, List.length_map]
    refine ⟨_, ?stream, hlength, fun m hm => ?element⟩
    case stream => rw [encodeBuffer, encodeUnits_of_valid hvalid, splitBytes_snd]
    case element =>
      rw [hlength] at hm
      refine ⟨packetTriplet (splitBytes bytes).1[m], ?numbered, ?encoded⟩
      case numbered => simp [numberFrom_eq_mapIdx, List.getElem?_eq_getElem hm]
      case encoded =>
        rw [List.getD_eq_getElem _ _ hm]
        exact exec_encode_of_valid (hvalid _ (List.getElem_mem hm)) core
  case invalid => rw [encodeBuffer, encodeUnits_of_not_valid hinvalid]

/-! ### The loop of `decode` (R107, R110) -/

section

variable {trip : Triplet} {s t : State} (h : present (decodeWord trip) s = .next t)

include h

theorem decodeElements_cons_of_ok (hok : t.rsp.status = 0) (seq : Nat) (es : List StreamElement) (core : State) :
    decodeElements (.unit seq trip :: es) core
      = (decodeElements es (core.setRsp t.rsp)).map ((seq, t.rsp.data.extractLsb' 0 13) :: ·) := by
  simp only [decodeElements, ask_of_present h, State.setRsp_rsp, Status.code]
  refine (if_pos hok).trans ?_
  cases decodeElements es _ <;> rfl

theorem decodeElements_cons_of_not_ok (hbad : t.rsp.status ≠ 0) (seq : Nat) (es : List StreamElement) (core : State) :
    decodeElements (.unit seq trip :: es) core = .error (.status t.rsp.status) := by
  simp only [decodeElements, ask_of_present h, State.setRsp_rsp, Status.code]
  exact if_neg hbad

end

/-- The elements before a bad one only move CORE on, and the bad one ends the loop from every state. -/
theorem decodeElements_append_of_error {good post : List StreamElement} {core : State} {e : FramingError}
    (hgood : ∀ g ∈ good, ∃ (seq : Nat) (trip : Triplet) (t : State),
      g = .unit seq trip ∧ present (decodeWord trip) core = .next t ∧ t.rsp.status = 0)
    (hpost : ∀ core', decodeElements post core' = .error e) (core' : State) :
    decodeElements (good ++ post) core' = .error e := by
  induction good generalizing core' with
  | nil => exact hpost core'
  | cons g good ih =>
    rw [List.forall_mem_cons] at hgood
    obtain ⟨⟨seq, trip, t, rfl, hpresent, hok⟩, hrest⟩ := hgood
    rw [List.cons_append, decodeElements_cons_of_ok hpresent hok, ih hrest, Except.map]

theorem decodeStream_of_elements_error {es : List StreamElement} {core : State} {e : FramingError}
    (h : decodeElements es core = .error e) (bitLength : Nat) : decodeStream ⟨bitLength, es⟩ core = .error e := by
  rw [decodeStream, h]

/-- Settles O47: the loop fails at the bad element, before the frame is looked at. -/
theorem firstBadElementEndsTheFrame : Obligations.FirstBadElementEndsTheFrame := by
  unfold Obligations.FirstBadElementEndsTheFrame
  intro good post bitLength core hgood
  refine ⟨fun seq trip t hpresent hbad => ?notOk, ?malformed⟩
  case notOk =>
    exact decodeStream_of_elements_error (decodeElements_append_of_error hgood
      (decodeElements_cons_of_not_ok hpresent hbad seq post) core) bitLength
  case malformed =>
    exact decodeStream_of_elements_error (decodeElements_append_of_error hgood (fun _ => rfl) core) bitLength

end Sys2Proof.Machine

/-! ## Several instances (60_exceptions.md R133) -/

namespace Sys2Proof.Machine

/-- The edge an instance takes replaces that instance, and nothing else in the list. -/
theorem clockInstance_of_edge {k : Nat} {inp : Input} {cores : List State} {s t : State} (hk : cores[k]? = some s)
    (ht : edge inp s = .next t) : clockInstance k inp cores = some (cores.set k t) := by
  simp only [clockInstance, hk, ht]

/-- Settles O43: the edge's answer is a function of the input alone (`edge_answers`), and only place `k` of the list
is written. -/
theorem instancesShareNothing : Obligations.InstancesShareNothing := by
  unfold Obligations.InstancesShareNothing
  intro k inp cores s hk
  obtain ⟨r, hanswer⟩ := edge_answers inp
  obtain ⟨hlt, -⟩ := List.getElem?_eq_some_iff.1 hk
  exact ⟨cores.set k (s.setRsp r), r, clockInstance_of_edge hk (hanswer s), List.length_set,
    List.getElem?_set_self hlt, fun _ hj => List.getElem?_set_ne hj.symm, hanswer⟩

end Sys2Proof.Machine

/-! ## Reset edges and whole runs (70_reset_and_hazards.md) -/

namespace Sys2Proof.Machine

/-- The first value of a trace is the response left by the first edge, and the rest goes on from there. -/
theorem trace_cons_of_edge {inp : Input} {s t : State} (h : edge inp s = .next t) (rest : List Input) :
    trace (inp :: rest) s = t.rsp :: trace rest t := by
  rw [trace, h]

/-- `rst` decides the edge whatever `cmd_valid` and `cmd` are, so a command presented with it is discarded. -/
theorem edge_of_rst {inp : Input} (h : inp.rst = true) (s : State) : edge inp s = .next (s.setRsp Response.zero) := by
  obtain ⟨rst, cmdValid, cmd⟩ := inp
  subst h
  exact edge_reset s cmdValid cmd

/-- A run whose first step is taken goes on from the next state. -/
theorem run_succ_of_step {M : Host.Core} {s t : M.State} (h : M.step s = .next t) (k : Nat) :
    M.run (k + 1) s = M.run k t := by
  simp only [Host.Core.run, h]

/-- A run of as many steps as there are inputs uses them all up, and leaves the last value of the trace in the response
registers, or what stood there if there was no edge. -/
theorem core_run_setInputs (inps : List Input) (s : State) :
    Sys2Proof.core.run inps.length (s.setInputs inps)
      = .next ((s.setInputs []).setRsp ((trace inps s).getLast?.getD s.rsp)) := by
  induction inps generalizing s with
  | nil => rfl
  | cons inp rest ih =>
    obtain ⟨r, hedge, htrace⟩ := trace_cons inp
    have hstep : Sys2Proof.core.step (s.setInputs (inp :: rest)) = .next ((s.setRsp r).setInputs rest) :=
      (step_cons s inp rest).trans (hedge _)
    rw [List.length_cons, run_succ_of_step hstep, ih, htrace, List.getLast?_cons]
    rfl

/-! ### The obligations -/

/-- Settles O7, by induction on the edges: each writes the zero response, whatever the state before it. -/
theorem resetEdgesClearAndHold : Obligations.ResetEdgesClearAndHold := by
  unfold Obligations.ResetEdgesClearAndHold
  intro s inps hrst
  induction inps generalizing s with
  | nil => rfl
  | cons inp rest ih =>
    obtain ⟨hinp, hrest⟩ := List.forall_mem_cons.1 hrst
    rw [trace_cons_of_edge (edge_of_rst hinp s), ih _ hrest, List.length_cons, List.replicate_succ]
    rfl

/-- Settles O9: the trace has a value an edge (`trace_length`), and `core_run_setInputs` names the end state. -/
theorem runEndsAfterItsLastInput : Obligations.RunEndsAfterItsLastInput := by
  unfold Obligations.RunEndsAfterItsLastInput
  intro s
  exact ⟨trace_length s.inputs s, _, core_run_setInputs s.inputs s, rfl, rfl⟩

end Sys2Proof.Machine

/-! ## Where a step stops, power-up, and which command gives which status (10_state.md, 60_exceptions.md) -/

namespace Sys2Proof.Machine

/-- Settles O8: a step with an input is that input's edge, which writes the response registers and nothing else. -/
theorem stepStopsOnlyWithoutInput : Obligations.StepStopsOnlyWithoutInput := by
  unfold Obligations.StepStopsOnlyWithoutInput
  intro s
  refine ⟨fun inp rest hinputs => ?input, step_nil⟩
  case input =>
    obtain ⟨r, hedge⟩ := edge_answers inp
    exact ⟨(s.setInputs rest).setRsp r, by rw [step_of_inputs hinputs, hedge], rfl⟩

/-- Settles O13: either edge writes all four registers, a reset edge with zeros and a command edge with a value that
the word alone decides, so nothing of their values at power-up is left. -/
theorem powerUpNeedsOnlyOneResetEdge : Obligations.PowerUpNeedsOnlyOneResetEdge := by
  unfold Obligations.PowerUpNeedsOnlyOneResetEdge
  intro rest w
  refine ⟨fun cmdValid => ?reset, ?command⟩
  case reset =>
    rw [step_of_inputs (State.powerUp_inputs _), edge_reset]
    rfl
  case command =>
    obtain ⟨r, hedge⟩ := edge_answers (Input.command w)
    refine ⟨(State.reset.setInputs rest).setRsp r, ?_, by rw [step_cons, hedge]⟩
    rw [step_of_inputs (State.powerUp_inputs _), hedge]
    rfl

/-! ### Which command gives which status -/

/-- The commands that give an error: the column "produced by CORE" of 60_exceptions.md R120. -/
@[simp] def producers : Status → List String
  | .fieldOutOfRange => ["PACK", "TO_ADDR", "FROM_ADDR", "ENCODE", "DECODE"]
  | .indexOutOfRange => ["LOOKUP", "LOOKUP_RC", "FROM_ADDR", "CHK_COMPUTE", "CHK_VERIFY", "DECODE"]
  | .checksumMismatch => ["DECODE"]
  | .malformedGlyphTriplet => ["RLOOKUP", "DECODE", "RESOLVE"]
  | .ok | .truncatedFrame | .sequenceGap | .illegalCommand => []

/-- A result that R120 lists for the command, or one without an error. -/
def ListedFor (i : Instr) (r : Result) : Prop :=
  r.status = .ok ∨ i.mnemonic ∈ producers r.status

@[simp] theorem listedFor_ret (i : Instr) (d : Word) (set : CellSet) : ListedFor i (ret d set) := .inl rfl

@[simp] theorem listedFor_raise (i : Instr) (st : Status) :
    ListedFor i (raise st) ↔ st = .ok ∨ i.mnemonic ∈ producers st := Iff.rfl

theorem fromAddrResult_listed (nt8 : BitVec 8) (t : TableId) (i : BitVec 10) :
    ListedFor (.fromAddr nt8 t i) (fromAddrResult nt8 t i) := by
  unfold fromAddrResult
  split
  · simp [Instr.mnemonic]
  · split <;> simp [Instr.mnemonic]

theorem decodeResult_listed (ntg : GlyphId) (t : TableId) (i : BitVec 10) (g cg : GlyphId) :
    ListedFor (.decode ntg t i g cg) (decodeResult ntg t i g cg) := by
  unfold decodeResult
  split
  · simp [Instr.mnemonic]
  · split
    · simp [Instr.mnemonic]
    · split_ifs <;> simp [Instr.mnemonic]

/-- Every command is answered with a result that is listed for it: so is each `raise` of its rule. -/
theorem exec_answers_listed (i : Instr) : ∃ r : Result, ListedFor i r ∧ ∀ s, exec i s = answer r s := by
  cases i with
  | pack => exact ⟨_, by unfold packResult; split <;> simp [Instr.mnemonic], exec_pack _ _ _⟩
  | unpack => exact ⟨_, listedFor_ret _ _ _, exec_unpack _⟩
  | lookup => exact ⟨_, by unfold lookupResult; split <;> simp [Instr.mnemonic], exec_lookup _ _⟩
  | lookupRc => exact ⟨_, by unfold lookupRcResult; split <;> simp [Instr.mnemonic], exec_lookupRc _ _ _⟩
  | rlookup => exact ⟨_, by unfold rlookupResult; split <;> simp [Instr.mnemonic], exec_rlookup _ _⟩
  | toAddr => exact ⟨_, by unfold toAddrResult; split <;> simp [Instr.mnemonic], exec_toAddr _⟩
  | fromAddr => exact ⟨_, fromAddrResult_listed _ _ _, exec_fromAddr _ _ _⟩
  | chkCompute => exact ⟨_, by unfold chkComputeResult; split <;> simp [Instr.mnemonic], exec_chkCompute _ _⟩
  | chkVerify => exact ⟨_, by unfold chkVerifyResult; split <;> simp [Instr.mnemonic], exec_chkVerify _ _ _⟩
  | encode => exact ⟨_, by unfold encodeResult; split <;> simp [Instr.mnemonic], exec_encode _⟩
  | decode => exact ⟨_, decodeResult_listed _ _ _ _ _, exec_decode _ _ _ _ _⟩
  | resolve => exact ⟨_, by unfold resolveResult; split <;> simp [Instr.mnemonic], exec_resolve _ _ _⟩

/-- Settles O15: an answer's status code is its result's, and the result is one that R120 lists for the command. -/
theorem onlyTheListedCommandsGiveAStatus : Obligations.OnlyTheListedCommandsGiveAStatus := by
  unfold Obligations.OnlyTheListedCommandsGiveAStatus
  intro i s t hexec
  obtain ⟨r, hlisted, hanswer⟩ := exec_answers_listed i
  rw [hanswer, answer, Host.Outcome.next.injEq] at hexec
  subst hexec
  rw [State.setRsp_rsp]
  rcases hlisted with hok | hproducer
  · simp [hok, Status.code]
  · cases hst : r.status <;> simp_all [Status.code]

end Sys2Proof.Machine

/-! ## Laws of the glyph ROM, of addresses and of the checksum (41_glyph_rom.md to 43_checksum.md) -/

namespace Sys2Proof.Machine

/-! ### Addresses (42_glyph_mapper.md section 3) -/

theorem exists_packet_toNat {nt t i : Nat} (hnt : nt ≤ 5) (ht : t < 4) (hi : i ≤ 255) :
    ∃ p : Packet, p.toNat = nt * 2 ^ 10 + t * 2 ^ 8 + i :=
  ⟨BitVec.ofNat 13 (nt * 2 ^ 10 + t * 2 ^ 8 + i), by rw [BitVec.toNat_ofNat]; omega⟩

/-- FROM_ADDR of a cell within payload range gives the packet whose three fields are its operands. -/
theorem exec_fromAddr_of_fields {nt8 : BitVec 8} {t : TableId} {i : BitVec 10} {p : Packet}
    (hfits : nt8.toNat ≤ 5 ∧ i.toNat ≤ 255) (hp : p.toNat = nt8.toNat * 2 ^ 10 + t.toNat * 2 ^ 8 + i.toNat)
    (s : State) : exec (.fromAddr nt8 t i) s = .next (s.setRsp (okResponse (p.setWidth 32) 0)) := by
  obtain ⟨-, -, -, hpacket⟩ := GlyphMapper.fromAddrResult nt8 t i s
  rw [hpacket hfits, ← hp, BitVec.ofNat_toNat]

/-- TO_ADDR gives the table and the index that are a valid packet's last two fields. -/
theorem exec_toAddr_of_fields {p : Packet} {t : TableId} {i : BitVec 10} (hvalid : p.toNat / 2 ^ 10 ≤ 5)
    (ht : p.toNat / 2 ^ 8 % 4 = t.toNat) (hi : p.toNat % 256 = i.toNat) (s : State) :
    exec (.toAddr p) s = .next (s.setRsp (okResponse (BitVec.ofNat 32 (t.toNat * 2 ^ 10 + i.toNat)) 0)) := by
  obtain ⟨-, haddr, -⟩ := GlyphMapper.toAddrResult p s
  rw [haddr hvalid, ht, hi]

/-- Settles O29: NodeType, table and index are the three fields of the packet's number, on the way there and back. -/
theorem addressRoundTrip : Obligations.AddressRoundTrip := by
  unfold Obligations.AddressRoundTrip
  refine ⟨fun p s hvalid => ?thereAndBack, fun nt8 t i s hfits => ?backAndThere⟩
  case thereAndBack =>
    have ht := packetOctave_toNat p
    have hi : (cellBits (reduce (packetPayload p))).toNat = p.toNat % 256 := by simp
    have hnt : (BitVec.ofNat 8 (p.toNat / 2 ^ 10)).toNat = p.toNat / 2 ^ 10 := by
      rw [BitVec.toNat_ofNat]
      omega
    exact ⟨packetOctave p, cellBits (reduce (packetPayload p)), exec_toAddr_of_fields hvalid ht.symm hi.symm s,
      exec_fromAddr_of_fields (by omega) (by omega) s⟩
  case backAndThere =>
    obtain ⟨p, hp⟩ := exists_packet_toNat hfits.1 t.isLt hfits.2
    have := t.isLt
    exact ⟨p, by omega, exec_fromAddr_of_fields hfits hp s,
      exec_toAddr_of_fields (by omega) (by omega) (by omega) s⟩

/-! ### How often a residue occurs -/

/-- `Nat.count_modEq_card` for a residue that is written out. -/
theorem card_filter_mod_eq {b r v : Nat} (hv : v < r) :
    ((Finset.range b).filter fun i => i % r = v).card = b / r + if v < b % r then 1 else 0 := by
  have hcount := Nat.count_modEq_card b (Nat.zero_lt_of_lt hv) v
  simpa only [Nat.count_eq_card_filter_range, Nat.ModEq, Nat.mod_eq_of_lt hv] using hcount

/-! ### LOOKUP and RLOOKUP (41_glyph_rom.md section 3) -/

/-- Settles O31: the glyph at cell `i` is `i % 21`, and `529 = 25 * 21 + 4` cells hold each glyph 25 times and the
first four once more. -/
theorem reverseLookupIsNeverUnique : Obligations.ReverseLookupIsNeverUnique := by
  unfold Obligations.ReverseLookupIsNeverUnique
  intro t i s hi
  obtain ⟨d, hlookup, hlow⟩ := exists_lookupResult_glyph (t := t) (cellIndex?_of_le hi)
  have hglyph : (d.extractLsb' 0 5).toNat = i.toNat % 21 := by
    rw [extractLsb'_toNat_div, Nat.pow_zero, Nat.div_one]
    exact hlow
  obtain ⟨-, hrlookup, -⟩ := GlyphRom.rlookupResult t (d.extractLsb' 0 5) s
  obtain ⟨set, hexec, hset⟩ := hrlookup (by omega)
  rw [hglyph] at hexec hset
  refine ⟨d, set, by rw [exec_lookup, hlookup, answer_ret], ?count, by simp [hset]; omega⟩
  case count =>
    have hcount : 529 / 21 + (if i.toNat % 21 < 529 % 21 then 1 else 0) = if i.toNat % 21 ≤ 3 then 26 else 25 := by
      split_ifs <;> omega
    rw [hexec, card_filter_mod_eq (by omega), hcount, hglyph, apply_ite (BitVec.ofNat 32)]
    rfl

/-! ### The checksum (43_checksum.md sections 1 and 3) -/

/-- Settles O32: `√5` lies between 1181/529 and 1183/529. -/
theorem rotationStepIsTheGoldenStep : Obligations.RotationStepIsTheGoldenStep := by
  unfold Obligations.RotationStepIsTheGoldenStep
  have hlo : (1181 / 529 : ℝ) ≤ √5 := Real.le_sqrt_of_sq_le (by norm_num)
  have hhi : √5 < (1183 / 529 : ℝ) := (Real.sqrt_lt' (by norm_num)).2 (by norm_num)
  have hfloor : ⌊(529 : ℝ) * Real.goldenRatio⌋ = 855 := by
    rw [Int.floor_eq_iff, Real.goldenRatio]
    constructor <;> push_cast <;> linarith
  exact ⟨hfloor, by rw [hfloor]; rfl, rfl⟩

/-- The closed form of 43_checksum.md section 1: `i + 326` reaches 529 at `i = 203`. -/
theorem rotated_mod_eq {i : Nat} (hi : i ≤ 528) :
    ((i + 326) % 529) % 16 = if i ≤ 202 then (i + 6) % 16 else (i + 5) % 16 := by
  split <;> omega

/-- Settles O33, by the closed form. -/
theorem checksumWrapsAtTwoHundredAndThree : Obligations.ChecksumWrapsAtTwoHundredAndThree := by
  unfold Obligations.ChecksumWrapsAtTwoHundredAndThree
  intro t i s
  obtain ⟨-, hcompute, -⟩ := ChecksumEngine.chkComputeResult t i s
  refine ⟨fun hi => ?before, fun ⟨hlo, hi⟩ => ?after⟩
  case before => rw [hcompute (by omega), rotated_mod_eq (by omega), if_pos hi]
  case after => rw [hcompute hi, rotated_mod_eq hi, if_neg (by omega)]

/-- Settles O34: the rotation permutes the cells, so the checksums are the residues modulo 16 of
`529 = 33 * 16 + 1` numbers. -/
theorem checksumValuesAreSpreadEvenly : Obligations.ChecksumValuesAreSpreadEvenly := by
  unfold Obligations.ChecksumValuesAreSpreadEvenly
  intro c
  have hrotate : ((Finset.univ : Finset CellIndex).filter fun i => chk i = c).card
      = ((Finset.univ : Finset CellIndex).filter fun j => j.val % 16 = c.toNat).card := by
    refine Finset.card_equiv (Equiv.addRight (326 : CellIndex)) fun i => ?_
    simp [chk_eq_iff, Fin.val_add]
  have hrange : ((Finset.univ : Finset CellIndex).filter fun j => j.val % 16 = c.toNat).card
      = ((Finset.range 529).filter fun n => n % 16 = c.toNat).card := by
    have hcells : Finset.range 529 = (Finset.univ : Finset CellIndex).map Fin.valEmbedding := by
      rw [Fin.map_valEmbedding_univ, Nat.Iio_eq_range]
    rw [hcells, Finset.filter_map, Finset.card_map]
    rfl
  have hzero : c.toNat < 1 ↔ c = 0 := by rw [← BitVec.toNat_inj]; simp
  rw [hrotate, hrange, card_filter_mod_eq c.isLt]
  simp only [hzero]
  split <;> rfl

/-! ### One-bit flips -/

/-- Flipping bit `k` of a number adds `2 ^ k` where the bit is 0 and takes it away where it is 1. -/
theorem xor_two_pow_cases (n k : Nat) :
    n / 2 ^ k % 2 = 0 ∧ n ^^^ 2 ^ k = n + 2 ^ k ∨ n / 2 ^ k % 2 = 1 ∧ (n ^^^ 2 ^ k) + 2 ^ k = n := by
  have hpos := Nat.two_pow_pos k
  have hdiv : (n ^^^ 2 ^ k) / 2 ^ k = n / 2 ^ k ^^^ 1 := by rw [Nat.xor_div_two_pow, Nat.div_self hpos]
  have hmod : (n ^^^ 2 ^ k) % 2 ^ k = n % 2 ^ k := by rw [Nat.xor_mod_two_pow, Nat.mod_self, Nat.xor_zero]
  have hn := Nat.div_add_mod n (2 ^ k)
  have hflip := Nat.div_add_mod (n ^^^ 2 ^ k) (2 ^ k)
  rw [hdiv, hmod] at hflip
  generalize n / 2 ^ k = q at hn hflip ⊢
  rcases Nat.mod_two_eq_zero_or_one q with h | h
  · rw [Nat.xor_one_of_even (Nat.even_iff.2 h), Nat.mul_succ] at hflip
    exact .inl ⟨h, by omega⟩
  · rw [Nat.xor_one_of_odd (Nat.odd_iff.2 h), Nat.mul_sub_one] at hflip
    have hle : 2 ^ k ≤ 2 ^ k * q := Nat.le_mul_of_pos_right _ (by omega)
    exact .inr ⟨h, by omega⟩

/-- The same for one bit of a bit vector. -/
theorem flip_toNat_cases {w k : Nat} (hk : k < w) (v : BitVec w) :
    v.toNat / 2 ^ k % 2 = 0 ∧ (v ^^^ BitVec.twoPow w k).toNat = v.toNat + 2 ^ k ∨
      v.toNat / 2 ^ k % 2 = 1 ∧ (v ^^^ BitVec.twoPow w k).toNat + 2 ^ k = v.toNat := by
  rw [BitVec.toNat_xor, BitVec.toNat_twoPow_of_lt hk]
  exact xor_two_pow_cases v.toNat k

/-- The collision table, read off the closed form: a flip of bit `k` is undetected exactly when the old index and the
new one have the same checksum. -/
theorem flipIsUndetected_iff {i i' : BitVec 10} {k : Nat} (hk : k < 10) (hflip : i' = i ^^^ BitVec.twoPow 10 k)
    (hi : i.toNat ≤ 528) (hi' : i'.toNat ≤ 528) :
    flipIsUndetected k i.toNat = true
      ↔ ((i'.toNat + 326) % 529) % 16 = ((i.toNat + 326) % 529) % 16 := by
  have hcases := flip_toNat_cases hk i
  rw [← hflip] at hcases
  rw [rotated_mod_eq hi, rotated_mod_eq hi']
  interval_cases k <;> simp only [flipIsUndetected, decide_eq_true_eq, Bool.false_eq_true, false_iff] <;>
    split_ifs <;> omega

/-- Settles O35: CHK_VERIFY answers 1 at the index only if the operand is the index's checksum, and at the flipped index
it compares that with the checksum there. -/
theorem oneBitIndexFlipsPassOnlyAsDocumented : Obligations.OneBitIndexFlipsPassOnlyAsDocumented := by
  unfold Obligations.OneBitIndexFlipsPassOnlyAsDocumented
  intro c t i i' k s hk hflip hi hi' hverified
  have hc : chk ⟨i.toNat, by omega⟩ = c := by
    by_contra hne
    rw [exec_chkVerify, chkVerifyResult_of_mismatch (cellIndex?_of_le hi) hne] at hverified
    exact absurd (ret_answer_inj hverified).1 (by decide)
  have hundetected : flipIsUndetected k i.toNat = true ↔ chk ⟨i'.toNat, by omega⟩ = c := by
    rw [flipIsUndetected_iff hk hflip hi hi', ← hc, chk_eq_iff, chk_toNat]
  rw [exec_chkVerify]
  by_cases hsame : chk ⟨i'.toNat, by omega⟩ = c
  · rw [chkVerifyResult_of_match (cellIndex?_of_le hi') hsame, if_pos (hundetected.2 hsame), answer_ret]
  · rw [chkVerifyResult_of_mismatch (cellIndex?_of_le hi') hsame, if_neg (mt hundetected.1 hsame), answer_ret]

end Sys2Proof.Machine

/-! ## Laws of ENCODE and DECODE (44_encoder_decoder.md section 3) -/

namespace Sys2Proof.Machine

/-! ### The DECODE command of a triplet -/

/-- The command that `decodeWord` is the word of: its operands are the five fields of the triplet (30_encoding.md R33,
R45). -/
def tripletCommand (trip : Triplet) : Instr :=
  .decode (trip.extractLsb' 22 5) (trip.extractLsb' 20 2) (trip.extractLsb' 10 10) (trip.extractLsb' 5 5)
    (trip.extractLsb' 0 5)

/-- A slice above the bits that there are is 0. -/
theorem extractLsb'_eq_zero_of_le {w lo : Nat} (h : w ≤ lo) (v : BitVec w) (len : Nat) : v.extractLsb' lo len = 0 := by
  ext j hj
  simpa using BitVec.getLsbD_of_ge v (lo + j) (by omega)

theorem decodeWord_eq_or (trip : Triplet) : decodeWord trip = 0xB0000000 ||| trip.setWidth 32 :=
  (concat_eq_iff (n := 32) _ _ rfl).2
    (by simp [BitVec.extractLsb'_or, BitVec.extractLsb'_setWidth_of_le, extractLsb'_eq_zero_of_le])

theorem decodeCmd_decodeWord (trip : Triplet) : decodeCmd (decodeWord trip) = .ok (tripletCommand trip) := by
  refine decodeCmd_of_encodeCmd ((concat_eq_iff (n := 32) _ _ rfl).2 ?_)
  rw [decodeWord_eq_or]
  simp [BitVec.extractLsb'_or, BitVec.extractLsb'_setWidth_of_le, extractLsb'_eq_zero_of_le]

/-- The fields of a packet's triplet (44_encoder_decoder.md R92). -/
theorem packetTriplet_slices (p : Packet) :
    (packetTriplet p).extractLsb' 22 5 = marker (packetNodeType p) ∧
    (packetTriplet p).extractLsb' 20 2 = packetOctave p ∧
    (packetTriplet p).extractLsb' 10 10 = cellBits (reduce (packetPayload p)) ∧
    (packetTriplet p).extractLsb' 5 5 = rom (packetOctave p) (reduce (packetPayload p)) ∧
    (packetTriplet p).extractLsb' 0 5 = checksumGlyph (chk (reduce (packetPayload p))) := by
  have hslices := (concat_eq_iff (packetTriplet p) _ (by rfl)).1 rfl
  simpa using hslices

/-! ### The operands that DECODE accepts -/

/-- What the five checks of R93 ask of the operands of DECODE, as arithmetic. -/
structure DecodeAccepts (ntg : GlyphId) (i : BitVec 10) (g cg : GlyphId) : Prop where
  marker : ntg.toNat ≤ 5
  payload : i.toNat ≤ 255
  glyph : i.toNat % 21 = g.toNat
  checksum : ((i.toNat + 326) % 529) % 16 = cg.toNat

section

variable {ntg : GlyphId} {i : BitVec 10} {g cg : GlyphId}

theorem DecodeAccepts.symbols (h : DecodeAccepts ntg i g cg) : ntg.toNat ≤ 5 ∧ g.toNat ≤ 20 ∧ cg.toNat ≤ 15 := by
  obtain ⟨hmarker, hpayload, hglyph, hchecksum⟩ := h
  omega

theorem exec_decode_of_accepts (h : DecodeAccepts ntg i g cg) (t : TableId) (s : State) :
    exec (.decode ntg t i g cg) s
      = .next (s.setRsp (okResponse (BitVec.ofNat 32 (ntg.toNat * 2 ^ 10 + t.toNat * 2 ^ 8 + i.toNat)) 0)) := by
  obtain ⟨-, -, hdecode⟩ := EncoderDecoder.decodeResult ntg t i g cg s
  obtain ⟨-, -, -, -, hpacket⟩ := hdecode h.symbols
  exact hpacket ⟨h.payload, h.glyph, h.checksum⟩

/-- DECODE answers `OK` only to operands that it accepts: every other branch of R93 raises an error. -/
theorem accepts_of_decode_ok {t : TableId} {s : State} {d : Word} {set : CellSet}
    (h : exec (.decode ntg t i g cg) s = .next (s.setRsp (okResponse d set))) : DecodeAccepts ntg i g cg := by
  rw [exec_decode] at h
  by_cases hsym : 5 < ntg.toNat ∨ 20 < g.toNat ∨ 15 < cg.toNat
  · rw [decodeResult_of_no_symbol hsym] at h
    exact absurd h (raise_answer_ne_ok (by decide))
  · rcases Nat.lt_or_ge 528 i.toNat with hi | hi
    · rw [decodeResult_of_no_cell (by omega) (cellIndex?_of_lt hi)] at h
      exact absurd h (raise_answer_ne_ok (by decide))
    · rw [decodeResult_of_cell (by omega) (cellIndex?_of_le hi)] at h
      split_ifs at h with hglyph hchk hpay
      · exact absurd h (raise_answer_ne_ok (by decide))
      · exact absurd h (raise_answer_ne_ok (by decide))
      · exact absurd h (raise_answer_ne_ok (by decide))
      · exact ⟨by omega, Nat.not_lt.1 hpay, not_not.1 hglyph, not_not.1 hchk⟩

end

/-! ### Decode inverts encode, and succeeds on nothing else -/

/-- The fields of a valid packet's triplet are accepted. -/
theorem packetTriplet_accepted {p : Packet} (hvalid : p.toNat / 2 ^ 10 ≤ 5) :
    DecodeAccepts (marker (packetNodeType p)) (cellBits (reduce (packetPayload p)))
      (rom (packetOctave p) (reduce (packetPayload p))) (checksumGlyph (chk (reduce (packetPayload p)))) where
  marker := by rwa [marker_toNat, packetNodeType_toNat]
  payload := by rw [cellBits_toNat, reduce_val, packetPayload_toNat]; omega
  glyph := by rw [cellBits_toNat, rom_toNat]
  checksum := by rw [cellBits_toNat, checksumGlyph_toNat, chk_toNat]

theorem exec_decode_packetTriplet {p : Packet} (hvalid : p.toNat / 2 ^ 10 ≤ 5) (s : State) :
    exec (tripletCommand (packetTriplet p)) s = .next (s.setRsp (okResponse (p.setWidth 32) 0)) := by
  obtain ⟨hntg, ht, hi, hg, hcg⟩ := packetTriplet_slices p
  have hp : p.toNat / 2 ^ 10 * 2 ^ 10 + p.toNat / 2 ^ 8 % 4 * 2 ^ 8 + p.toNat % 256 = p.toNat := by omega
  rw [tripletCommand, hntg, ht, hi, hg, hcg, exec_decode_of_accepts (packetTriplet_accepted hvalid), marker_toNat,
    packetNodeType_toNat, packetOctave_toNat, cellBits_toNat, reduce_val, packetPayload_toNat, hp, BitVec.ofNat_toNat]

/-- ENCODE answers `OK` only to a valid packet, and with the packet's triplet. -/
theorem encode_ok {p : Packet} {s : State} {d : Word}
    (h : exec (.encode p) s = .next (s.setRsp (okResponse d 0))) :
    p.toNat / 2 ^ 10 ≤ 5 ∧ d = (packetTriplet p).setWidth 32 := by
  by_cases hvalid : p.toNat / 2 ^ 10 ≤ 5
  · rw [exec_encode, encodeResult, if_pos ((validPacket_iff p).2 hvalid)] at h
    exact ⟨hvalid, (ret_answer_inj h).1.symm⟩
  · rw [exec_encode, encodeResult_of_not_valid (by omega)] at h
    exact absurd h (raise_answer_ne_ok (by decide))

/-- Settles O37: the word is `decodeWord` of the packet's triplet. -/
theorem decodeInvertsEncode : Obligations.DecodeInvertsEncode := by
  unfold Obligations.DecodeInvertsEncode
  intro p s hvalid
  refine ⟨_, _, exec_encode_of_valid hvalid s, ?_, rfl, exec_decode_packetTriplet hvalid s⟩
  rw [← decodeWord_eq_or, decodeCmd_decodeWord]

/-- Settles O38: the checks that DECODE passed say that its operands are the fields of the packet's triplet; and two
packets with one triplet are both what that triplet decodes to. -/
theorem decodeSucceedsOnlyOnEncodings : Obligations.DecodeSucceedsOnlyOnEncodings := by
  unfold Obligations.DecodeSucceedsOnlyOnEncodings
  refine ⟨fun ntg t i g cg s d set hok => ?onlyEncodings, fun p q s d hp hq => ?injective⟩
  case onlyEncodings =>
    have haccepts := accepts_of_decode_ok hok
    rw [exec_decode_of_accepts haccepts, ← answer_ret] at hok
    obtain ⟨hd, hset⟩ := ret_answer_inj hok
    obtain ⟨hntg, hi, hglyph, hchk⟩ := haccepts
    obtain ⟨p, hp⟩ := exists_packet_toNat hntg t.isLt hi
    have ht := t.isLt
    have hnt : p.toNat / 2 ^ 10 = ntg.toNat := by omega
    have hoct : p.toNat / 2 ^ 8 % 4 = t.toNat := by omega
    have hpay : p.toNat % 256 = i.toNat := by omega
    refine ⟨p, by omega, by rw [← hd, ← hp, BitVec.ofNat_toNat], hset.symm, ?_⟩
    rw [exec_encode, encodeResult_of_valid (by omega), hnt, hoct, hpay, hglyph, hchk, answer_ret]
  case injective =>
    obtain ⟨hpvalid, hpd⟩ := encode_ok hp
    obtain ⟨hqvalid, hqd⟩ := encode_ok hq
    have htrip : packetTriplet p = packetTriplet q := by
      rw [← extractLsb'_setWidth_triplet (packetTriplet p), ← hpd, hqd, extractLsb'_setWidth_triplet]
    have hdecode := exec_decode_packetTriplet hpvalid s
    rw [htrip, exec_decode_packetTriplet hqvalid s, ← answer_ret] at hdecode
    obtain ⟨hdata, -⟩ := ret_answer_inj hdecode
    simpa using (congrArg (BitVec.setWidth 13) hdata).symm

/-! ### One-bit flips of a triplet -/

theorem extractLsb'_flip_of_mem {w k lo len : Nat} (hk : k < w) (hlo : lo ≤ k) (v : BitVec w) :
    (v ^^^ BitVec.twoPow w k).extractLsb' lo len = v.extractLsb' lo len ^^^ BitVec.twoPow len (k - lo) := by
  rw [BitVec.extractLsb'_xor]
  congr 1
  ext j hj
  simp [BitVec.getLsbD_twoPow, BitVec.getElem_twoPow, hk]
  omega

theorem extractLsb'_flip_of_not_mem {w k lo len : Nat} (h : k < lo ∨ lo + len ≤ k) (v : BitVec w) :
    (v ^^^ BitVec.twoPow w k).extractLsb' lo len = v.extractLsb' lo len := by
  rw [BitVec.extractLsb'_xor]
  have hzero : (BitVec.twoPow w k).extractLsb' lo len = 0 := by
    ext j hj
    simp [BitVec.getLsbD_twoPow]
    omega
  rw [hzero]
  exact BitVec.xor_zero

section

variable {ntg : GlyphId} {i : BitVec 10} {g cg : GlyphId} (h : DecodeAccepts ntg i g cg) {j : Nat}

include h

/-- A flipped checksum glyph stands for another checksum, or, with bit 4 set, for none. -/
theorem exec_decode_flipped_checksum (hj : j < 5) (t : TableId) (s : State) :
    exec (.decode ntg t i g (cg ^^^ BitVec.twoPow 5 j)) s
      = .next (s.setRsp (errorResponse (if j < 4 then 3 else 6))) := by
  obtain ⟨-, hnoSymbol, hdecode⟩ := EncoderDecoder.decodeResult ntg t i g (cg ^^^ BitVec.twoPow 5 j) s
  have hflip := flip_toNat_cases hj cg
  obtain ⟨hntg, hg, hcg⟩ := h.symbols
  have hpayload := h.payload
  have hchecksum := h.checksum
  have hpos := Nat.two_pow_pos j
  split
  case isTrue hlow =>
    have hcg' : (cg ^^^ BitVec.twoPow 5 j).toNat ≤ 15 := by
      interval_cases j <;> omega
    obtain ⟨-, -, hwrong, -⟩ := hdecode ⟨hntg, hg, hcg'⟩
    exact hwrong ⟨by omega, h.glyph, by omega⟩
  case isFalse hhigh =>
    obtain rfl : j = 4 := by omega
    exact hnoSymbol (by omega)

/-- A flipped glyph is another glyph than the cell's, or none. -/
theorem exec_decode_flipped_glyph (hj : j < 5) (t : TableId) (s : State) :
    exec (.decode ntg t i (g ^^^ BitVec.twoPow 5 j) cg) s = .next (s.setRsp (errorResponse 6)) := by
  obtain ⟨-, hnoSymbol, hdecode⟩ := EncoderDecoder.decodeResult ntg t i (g ^^^ BitVec.twoPow 5 j) cg s
  have hflip := flip_toNat_cases hj g
  have hpos := Nat.two_pow_pos j
  obtain ⟨hntg, -, hcg⟩ := h.symbols
  rcases Nat.lt_or_ge 20 (g ^^^ BitVec.twoPow 5 j).toNat with hnone | hother
  · exact hnoSymbol (.inr (.inl hnone))
  · obtain ⟨-, hwrong, -⟩ := hdecode ⟨hntg, hother, hcg⟩
    have hpayload := h.payload
    have hglyph := h.glyph
    exact hwrong ⟨by omega, by omega⟩

/-- A flipped index names a cell with another glyph, since 21 divides no power of two, or, with bit 9 set, none. -/
theorem exec_decode_flipped_cell (hj : j < 10) (t : TableId) (s : State) :
    exec (.decode ntg t (i ^^^ BitVec.twoPow 10 j) g cg) s
      = .next (s.setRsp (if j = 9 ∧ 17 ≤ i.toNat then errorResponse 2 else errorResponse 6)) := by
  obtain ⟨-, -, hdecode⟩ := EncoderDecoder.decodeResult ntg t (i ^^^ BitVec.twoPow 10 j) g cg s
  obtain ⟨hnoCell, hwrong, -⟩ := hdecode h.symbols
  have hflip := flip_toNat_cases hj i
  have hpayload := h.payload
  have hglyph := h.glyph
  split
  case isTrue hout =>
    obtain ⟨rfl, hi⟩ := hout
    exact hnoCell (by omega)
  case isFalse hin =>
    refine hwrong ⟨?cell, ?glyph⟩
    case cell => interval_cases j <;> omega
    case glyph => interval_cases j <;> omega

end

/-- A node type that no packet may have is no marker (44_encoder_decoder.md R90). -/
theorem exec_decode_packetTriplet_of_not_valid {p : Packet} (hinvalid : 5 < p.toNat / 2 ^ 10) (s : State) :
    exec (tripletCommand (packetTriplet p)) s = .next (s.setRsp (errorResponse 6)) := by
  obtain ⟨hntg, -⟩ := packetTriplet_slices p
  rw [tripletCommand, exec_decode, decodeResult_of_no_symbol, answer_raise, Status.code]
  rw [hntg, marker_toNat, packetNodeType_toNat]
  exact .inl hinvalid

/-- The cell and the two glyphs of a triplet are read off the payload alone; the rest of the packet stands above them. -/
theorem exists_packetTriplet_low (p : Packet) : ∃ low < 2 ^ 20, ∀ q : Packet, q.toNat % 256 = p.toNat % 256 →
    (packetTriplet q).toNat = q.toNat / 256 * 2 ^ 20 + low := by
  refine ⟨p.toNat % 256 * 2 ^ 10 + p.toNat % 256 % 21 * 2 ^ 5 + ((p.toNat % 256 + 326) % 529) % 16, by omega,
    fun q hq => ?_⟩
  rw [packetTriplet_toNat, hq]
  omega

/-- The table and the marker of a triplet are the octave and the node type of its packet, so flipping a bit there is
flipping it in the packet. -/
theorem packetTriplet_flip {k : Nat} (hlo : 20 ≤ k) (hhi : k < 25) (p : Packet) :
    packetTriplet p ^^^ BitVec.twoPow 27 k = packetTriplet (p ^^^ BitVec.twoPow 13 (k - 12)) := by
  obtain ⟨low, hlow, htriplet⟩ := exists_packetTriplet_low p
  have htrip := flip_toNat_cases (show k < 27 by omega) (packetTriplet p)
  have hpacket := flip_toNat_cases (show k - 12 < 13 by omega) p
  have hpay : (p ^^^ BitVec.twoPow 13 (k - 12)).toNat % 256 = p.toNat % 256 := by
    interval_cases k <;> omega
  apply BitVec.eq_of_toNat_eq
  rw [htriplet p rfl] at htrip
  rw [htriplet _ hpay]
  interval_cases k <;> omega

/-- Bits 25 and 26 of a triplet are the two of the marker that no node type has (44_encoder_decoder.md R90). -/
theorem exec_decode_flipped_high_marker {p : Packet} {k : Nat} (hlo : 25 ≤ k) (hhi : k < 27) (s : State) :
    exec (tripletCommand (packetTriplet p ^^^ BitVec.twoPow 27 k)) s = .next (s.setRsp (errorResponse 6)) := by
  obtain ⟨hntg, -⟩ := packetTriplet_slices p
  have hflip := flip_toNat_cases (show k - 22 < 5 by omega) (marker (packetNodeType p))
  have hnt := (packetNodeType p).isLt
  rw [marker_toNat] at hflip
  rw [tripletCommand, exec_decode, decodeResult_of_no_symbol, answer_raise, Status.code]
  rw [extractLsb'_flip_of_mem (by omega) (by omega), hntg]
  left
  interval_cases k <;> omega

/-- What DECODE answers to a flipped triplet, field by field. -/
theorem exec_decode_flipped_packetTriplet {p : Packet} (hvalid : p.toNat / 2 ^ 10 ≤ 5) {k : Nat} (hk : k < 27)
    (s : State) :
    exec (tripletCommand (packetTriplet p ^^^ BitVec.twoPow 27 k)) s
      = .next (s.setRsp (flippedTripletResponse p k)) := by
  obtain ⟨hntg, ht, hi, hg, hcg⟩ := packetTriplet_slices p
  have haccepts := packetTriplet_accepted hvalid
  rcases (by omega : k < 5 ∨ (5 ≤ k ∧ k < 10) ∨ (10 ≤ k ∧ k < 20) ∨ (20 ≤ k ∧ k < 25) ∨ 25 ≤ k)
    with hchecksum | ⟨hlo, hglyph⟩ | ⟨hlo, hcell⟩ | ⟨hlo, hpacket⟩ | hmarker
  · simp (disch := omega) only [tripletCommand, extractLsb'_flip_of_not_mem, hntg, ht, hi, hg]
    rw [extractLsb'_flip_of_mem hk (Nat.zero_le k), hcg, Nat.sub_zero,
      exec_decode_flipped_checksum haccepts hchecksum, flippedTripletResponse, if_pos (show k < 10 by omega),
      apply_ite errorResponse]
  · simp (disch := omega) only [tripletCommand, extractLsb'_flip_of_not_mem, hntg, ht, hi, hcg]
    rw [extractLsb'_flip_of_mem hk hlo, hg, exec_decode_flipped_glyph haccepts (by omega), flippedTripletResponse,
      if_neg (by omega), if_pos hglyph]
  · simp (disch := omega) only [tripletCommand, extractLsb'_flip_of_not_mem, hntg, ht, hg, hcg]
    have hlast : k - 10 = 9 ↔ k = 19 := by omega
    rw [extractLsb'_flip_of_mem hk hlo, hi, exec_decode_flipped_cell haccepts (by omega), flippedTripletResponse,
      if_neg (show ¬ k < 4 by omega), if_neg (show ¬ k < 10 by omega), if_pos hcell, cellBits_toNat, reduce_val,
      packetPayload_toNat]
    simp only [hlast]
  · rw [packetTriplet_flip hlo hpacket, flippedTripletResponse, if_neg (by omega), if_neg (by omega),
      if_neg (by omega)]
    by_cases hvalid' : (p ^^^ BitVec.twoPow 13 (k - 12)).toNat / 2 ^ 10 ≤ 5
    · rw [if_pos ⟨hpacket, hvalid'⟩, exec_decode_packetTriplet hvalid']
    · rw [if_neg fun h => hvalid' h.2, exec_decode_packetTriplet_of_not_valid (Nat.not_le.1 hvalid')]
  · rw [exec_decode_flipped_high_marker hmarker hk, flippedTripletResponse, if_neg (by omega), if_neg (by omega),
      if_neg (by omega), if_neg (by omega)]

/-- Settles O39: the word with the bit flipped is `decodeWord` of the flipped triplet. -/
theorem oneBitTripletFlipsAreDetectedAsDocumented : Obligations.OneBitTripletFlipsAreDetectedAsDocumented := by
  unfold Obligations.OneBitTripletFlipsAreDetectedAsDocumented
  intro p s d k hk hencode
  obtain ⟨hvalid, rfl⟩ := encode_ok hencode
  have hflip : (packetTriplet p ^^^ BitVec.twoPow 27 k).setWidth 32
      = (packetTriplet p).setWidth 32 ^^^ BitVec.twoPow 32 k := by
    have hbit : (BitVec.twoPow 27 k).setWidth 32 = BitVec.twoPow 32 k :=
      BitVec.eq_of_toNat_eq (by rw [BitVec.toNat_setWidth_of_le (by decide), BitVec.toNat_twoPow_of_lt hk,
        BitVec.toNat_twoPow_of_lt (by omega)])
    rw [BitVec.setWidth_xor, hbit]
  refine ⟨_, ?word, rfl, exec_decode_flipped_packetTriplet hvalid hk s⟩
  case word => rw [← hflip, ← decodeWord_eq_or, decodeCmd_decodeWord]

end Sys2Proof.Machine

/-! ## What a glyph and its checksum glyph determine: RESOLVE (44_encoder_decoder.md section 3) -/

namespace Sys2Proof.Machine

/-! ### The candidates, as numbers -/

/-- The set `S` of R94: the cells with glyph `g` and checksum `c`. -/
def candidateSet (g c : Nat) : Finset Nat :=
  (Finset.range 529).filter fun i => i % 21 = g ∧ ((i + 326) % 529) % 16 = c

theorem mem_candidateSet {g c i : Nat} :
    i ∈ candidateSet g c ↔ i < 529 ∧ i % 21 = g ∧ ((i + 326) % 529) % 16 = c := by
  rw [candidateSet, Finset.mem_filter, Finset.mem_range]

/-- Two candidates have one residue modulo 21, and modulo 16 one residue if both stand on the same side of the wrap of
the checksum and neighbouring ones if not; so they are 273 apart (273 = 13 * 21 = 17 * 16 + 1). -/
theorem eq_add_of_mem_candidateSet {g c i j : Nat} (hi : i ∈ candidateSet g c) (hj : j ∈ candidateSet g c)
    (hlt : i < j) : j = i + 273 := by
  obtain ⟨hi529, higlyph, hichk⟩ := mem_candidateSet.1 hi
  obtain ⟨hj529, hjglyph, hjchk⟩ := mem_candidateSet.1 hj
  rw [rotated_mod_eq (by omega)] at hichk hjchk
  split_ifs at hichk hjchk <;> omega

/-- The residue modulo 336 that is `g` modulo 21 and `c + 11` modulo 16, by the Chinese remainder theorem: where a
candidate at or after the wrap must stand. -/
def residueAfterWrap (g c : Nat) : Nat := (64 * g + 273 * (c + 11)) % 336

theorem residueAfterWrap_mod {g c : Nat} (hg : g ≤ 20) (hc : c ≤ 15) :
    residueAfterWrap g c % 21 = g ∧ (residueAfterWrap g c + 5) % 16 = c := by
  unfold residueAfterWrap
  omega

/-- Cells with the residue of a candidate after the wrap are candidates there. -/
theorem mem_candidateSet_of_residue {g c i : Nat} (hg : g ≤ 20) (hc : c ≤ 15) (hwrap : 203 ≤ i) (hi : i ≤ 528)
    (hres : i % 336 = residueAfterWrap g c) : i ∈ candidateSet g c := by
  obtain ⟨hglyph, hchk⟩ := residueAfterWrap_mod hg hc
  rw [mem_candidateSet, rotated_mod_eq hi, if_neg (by omega)]
  omega

/-- The cells from the wrap on leave out ten residues of 336, and these are the ten pairs that have no candidate
(44_encoder_decoder.md section 3). -/
theorem candidateSet_eq_empty_iff {g c : Nat} (hg : g ≤ 20) (hc : c ≤ 15) :
    candidateSet g c = ∅ ↔ 4 ≤ g ∧ g ≤ 13 ∧ c = g + 2 := by
  constructor
  · intro hempty
    have hnone : ∀ i, i ∉ candidateSet g c := Finset.eq_empty_iff_forall_notMem.1 hempty
    have hlt : residueAfterWrap g c < 336 := Nat.mod_lt _ (by decide)
    have hlow : 193 ≤ residueAfterWrap g c := by
      by_contra hlow
      exact hnone (residueAfterWrap g c + 336)
        (mem_candidateSet_of_residue hg hc (by omega) (by omega) (by omega))
    have hhigh : residueAfterWrap g c ≤ 202 := by
      by_contra hhigh
      exact hnone (residueAfterWrap g c) (mem_candidateSet_of_residue hg hc (by omega) (by omega) (by omega))
    obtain ⟨hglyph, hchk⟩ := residueAfterWrap_mod hg hc
    omega
  · rintro ⟨hg4, hg13, rfl⟩
    refine Finset.eq_empty_iff_forall_notMem.2 fun i hi => ?_
    obtain ⟨hi529, hglyph, hchk⟩ := mem_candidateSet.1 hi
    rw [rotated_mod_eq (by omega)] at hchk
    split_ifs at hchk <;> omega

/-- A set of candidates is its lowest one, and perhaps the cell 273 after it. -/
theorem candidateSet_subset_pair {g c low : Nat} (hlow : low ∈ candidateSet g c)
    (hleast : ∀ i ∈ candidateSet g c, low ≤ i) : candidateSet g c ⊆ {low, low + 273} := by
  intro i hi
  rw [Finset.mem_insert, Finset.mem_singleton]
  rcases (hleast i hi).eq_or_lt with heq | hlt
  · exact .inl heq.symm
  · exact .inr (eq_add_of_mem_candidateSet hlow hi hlt)

theorem candidateSet_card_le_two {g c low : Nat} (hlow : low ∈ candidateSet g c)
    (hleast : ∀ i ∈ candidateSet g c, low ≤ i) : (candidateSet g c).card ≤ 2 :=
  (Finset.card_le_card (candidateSet_subset_pair hlow hleast)).trans Finset.card_le_two

/-! ### What RESOLVE answers -/

/-- RESOLVE's answer, by the candidates: none, or a lowest one, which is reached when it is a payload. -/
theorem exists_exec_resolve {g cg : GlyphId} (hg : g.toNat ≤ 20) (hcg : cg.toNat ≤ 15) (t : TableId) (s : State) :
    ∃ (low reach : Nat) (set : CellSet),
      exec (.resolve t g cg) s = .next (s.setRsp (okResponse
        (BitVec.ofNat 32 (reach * 2 ^ 20 + low * 2 ^ 10 + (candidateSet g.toNat cg.toNat).card)) set)) ∧
      (∀ i, set.getLsbD i = true ↔ i ∈ candidateSet g.toNat cg.toNat) ∧
      (candidateSet g.toNat cg.toNat = ∅ ∧ low = 0 ∧ reach = 0 ∨
        low ∈ candidateSet g.toNat cg.toNat ∧ (∀ i ∈ candidateSet g.toNat cg.toNat, low ≤ i) ∧
          reach = if low ≤ 255 then 1 else 0) := by
  obtain ⟨-, hresolve, -⟩ := EncoderDecoder.resolveResult t g cg s
  obtain ⟨low, reach, set, hexec, hset, hempty, hnonempty⟩ :=
    hresolve ⟨hg, hcg⟩ (candidateSet g.toNat cg.toNat) fun _ => mem_candidateSet
  refine ⟨low, reach, set, hexec, fun i => by rw [hset, decide_eq_true_eq], ?_⟩
  by_cases hS : candidateSet g.toNat cg.toNat = ∅
  · exact .inl ⟨hS, hempty hS⟩
  · exact .inr (hnonempty hS)

/-- Settles O40: candidates are 273 apart, so there is one beside the lowest at most, and then the lowest is a payload
because the other is a cell. -/
theorem glyphAndChecksumLeaveAtMostTwoCells : Obligations.GlyphAndChecksumLeaveAtMostTwoCells := by
  unfold Obligations.GlyphAndChecksumLeaveAtMostTwoCells
  intro t g cg s hg hcg
  obtain ⟨low, reach, set, hexec, hset, hcases⟩ := exists_exec_resolve hg hcg t s
  have hzero : (candidateSet g.toNat cg.toNat).card = 0 ↔ 4 ≤ g.toNat ∧ g.toNat ≤ 13 ∧ cg.toNat = g.toNat + 2 := by
    rw [Finset.card_eq_zero, candidateSet_eq_empty_iff hg hcg]
  have hunique : ∀ i j, i ≤ 255 → j ≤ 255 → set.getLsbD i = true → set.getLsbD j = true → i = j := by
    intro i j hi hj hiset hjset
    rw [hset] at hiset hjset
    rcases Nat.lt_trichotomy i j with hlt | heq | hgt
    · have := eq_add_of_mem_candidateSet hiset hjset hlt
      omega
    · exact heq
    · have := eq_add_of_mem_candidateSet hjset hiset hgt
      omega
  rcases hcases with ⟨hempty, rfl, rfl⟩ | ⟨hlow, hleast, hreach⟩
  · have hcard := Finset.card_eq_zero.2 hempty
    exact ⟨_, 0, 0, set, by omega, by omega, by omega, hexec, hzero, by omega, hunique⟩
  · have hcell := (mem_candidateSet.1 hlow).1
    refine ⟨_, low, reach, set, candidateSet_card_le_two hlow hleast, by omega, by split at hreach <;> omega, hexec,
      hzero, fun htwo => ?pair, hunique⟩
    case pair =>
      have hpair : candidateSet g.toNat cg.toNat = {low, low + 273} :=
        Finset.eq_of_subset_of_card_le (candidateSet_subset_pair hlow hleast) (Finset.card_le_two.trans htwo.ge)
      have hsecond : low + 273 ∈ candidateSet g.toNat cg.toNat := by simp [hpair]
      have hsecondCell := (mem_candidateSet.1 hsecond).1
      refine ⟨by rw [hreach, if_pos (by omega)], fun i => ?_⟩
      rw [hset, hpair, Finset.mem_insert, Finset.mem_singleton]

/-- Settles O41: the payload is a candidate, and a lower one would be 273 below it. -/
theorem resolveRecoversThePayload : Obligations.ResolveRecoversThePayload := by
  unfold Obligations.ResolveRecoversThePayload
  intro p t s d hencode
  obtain ⟨hvalid, rfl⟩ := encode_ok hencode
  obtain ⟨-, -, -, hg, hcg⟩ := packetTriplet_slices p
  rw [BitVec.extractLsb'_setWidth_of_le (by decide), BitVec.extractLsb'_setWidth_of_le (by decide), hg, hcg]
  obtain ⟨-, hglyph, hchk⟩ := (packetTriplet_accepted hvalid).symbols
  obtain ⟨low, reach, set, hexec, hset, hcases⟩ := exists_exec_resolve hglyph hchk t s
  have hpayload : p.toNat % 256 ∈ candidateSet (rom (packetOctave p) (reduce (packetPayload p))).toNat
      (checksumGlyph (chk (reduce (packetPayload p)))).toNat := by
    rw [mem_candidateSet, rom_toNat, checksumGlyph_toNat, chk_toNat, reduce_val, packetPayload_toNat]
    omega
  rcases hcases with ⟨hempty, -⟩ | ⟨hlow, hleast, hreach⟩
  · rw [hempty] at hpayload
    exact absurd hpayload (Finset.notMem_empty _)
  · have heq : low = p.toNat % 256 := by
      rcases (hleast _ hpayload).eq_or_lt with heq | hlt
      · exact heq
      · have := eq_add_of_mem_candidateSet hlow hpayload hlt
        omega
    subst heq
    refine ⟨_, set, Finset.card_pos.2 ⟨_, hpayload⟩, candidateSet_card_le_two hlow hleast, ?_, (hset _).2 hpayload⟩
    rw [hexec, hreach, if_pos (by omega), Nat.one_mul]

end Sys2Proof.Machine

/-! ## The way back through the host's framing: reassemble and decode of a buffer (45_host_framing.md) -/

namespace Sys2Proof.Machine

/-! ### Reassembly (R106) -/

/-- The bytes that step 4 of R106 reads off the packets' bits. -/
def joinedBytes (packets : List (Nat × Packet)) (bitLength : Nat) : List (BitVec 8) :=
  (List.range (bitLength / 8)).map (byteAt ((packets.flatMap fun p => packetBits p.2).take bitLength))

@[simp] theorem joinedBytes_length (packets : List (Nat × Packet)) (bitLength : Nat) :
    (joinedBytes packets bitLength).length = bitLength / 8 := by
  simp [joinedBytes]

/-- Bit `n` of the packets' bit string (R101). -/
theorem flatMap_packetBits_getD {packets : List (Nat × Packet)} {n : Nat} (hn : n < 13 * packets.length) :
    (packets.flatMap fun p => packetBits p.2).getD n false
      = (packets.getD (n / 13) (0, 0)).2.getLsbD (12 - n % 13) := by
  rw [← List.flatMap_map, getD_flatMap_of_length packetBits 13 (by decide) packetBits_length (packets.map Prod.snd) 0 n
    (by rwa [List.length_map]), packetBits_getD _ (n % 13) (Nat.mod_lt n (by decide)), ← List.getD_map (f := Prod.snd)]

/-- Bit `n` of the joined bytes is bit `n` of the packets' bit string. -/
theorem joinedBytes_bit {packets : List (Nat × Packet)} {bitLength n : Nat} (hbits : bitLength ≤ 13 * packets.length)
    (hbytes : bitLength % 8 = 0) (hn : n < bitLength) :
    ((joinedBytes packets bitLength).getD (n / 8) 0).getLsbD (7 - n % 8)
      = (packets.getD (n / 13) (0, 0)).2.getLsbD (12 - n % 13) := by
  have hbyte : (joinedBytes packets bitLength).getD (n / 8) 0
      = byteAt ((packets.flatMap fun p => packetBits p.2).take bitLength) (n / 8) := by
    have hlt : n / 8 < bitLength / 8 := by omega
    simp [joinedBytes, List.getD_eq_getElem?_getD, hlt]
  have htake : ((packets.flatMap fun p => packetBits p.2).take bitLength).getD n false
      = (packets.flatMap fun p => packetBits p.2).getD n false := by
    simp [List.getD_eq_getElem?_getD, hn]
  rw [hbyte, getLsbD_byteAt _ (n / 8) (n % 8) (Nat.mod_lt n (by decide)), Nat.div_add_mod, htake,
    flatMap_packetBits_getD (by omega)]

/-- Settles O46: the checks are tried in the rule's order, and what is joined is `joinedBytes`. -/
theorem reassembleChecksThenJoinsTheBits : Obligations.ReassembleChecksThenJoinsTheBits := by
  unfold Obligations.ReassembleChecksThenJoinsTheBits
  intro packets bitLength
  refine ⟨fun hshort => ?truncated, fun henough => ⟨fun hgap => ?gap, fun hseq =>
    ⟨fun hrefused => ?refused, fun ⟨hlength, hbytes⟩ => ?joined⟩⟩⟩
  case truncated => rw [reassemble, unitsNeeded, if_pos hshort, Status.code]
  case gap => rw [reassemble, unitsNeeded, if_neg (Nat.not_lt.2 henough), if_pos hgap, Status.code]
  case refused =>
    rw [reassemble, unitsNeeded, if_neg (Nat.not_lt.2 henough), if_neg (not_not.2 hseq)]
    by_cases hexcess : packets.length > (bitLength + 12) / 13
    · exact .inl (if_pos hexcess)
    · exact .inr ((if_neg hexcess).trans (if_pos (hrefused.resolve_left hexcess)))
  case joined =>
    refine ⟨joinedBytes packets bitLength, ?ok, by rw [joinedBytes_length]; omega, fun n hn =>
      joinedBytes_bit (by omega) hbytes hn⟩
    case ok =>
      rw [reassemble, unitsNeeded, if_neg (Nat.not_lt.2 henough), if_neg (not_not.2 hseq), if_neg (Nat.not_lt.2 hlength.le),
        if_neg (not_not.2 hbytes)]
      rfl

/-! ### The round trip of a buffer (section 4) -/

theorem present_decodeWord_packetTriplet {u : Packet} (hvalid : u.toNat / 2 ^ 10 ≤ 5) (s : State) :
    present (decodeWord (packetTriplet u)) s = .next (s.setRsp (okResponse (u.setWidth 32) 0)) := by
  rw [present_eq_command, command_of_decode (decodeCmd_decodeWord _), exec_decode_packetTriplet hvalid]

/-- A packet is read back whole from bits 12:0 of the data word. -/
theorem extractLsb'_setWidth_packet (u : Packet) : (u.setWidth 32).extractLsb' 0 13 = u := by
  rw [← BitVec.setWidth_eq_extractLsb' (by decide), BitVec.setWidth_setWidth_of_le _ (by decide), BitVec.setWidth_eq]

/-- The packets with indices that `decode` hands to `reassemble`: each beside its place in the list. -/
def numberPackets (m : Nat) (us : List Packet) : List (Nat × Packet) :=
  us.mapIdx fun k u => (m + k, u)

theorem numberPackets_cons (m : Nat) (u : Packet) (us : List Packet) :
    numberPackets m (u :: us) = (m, u) :: numberPackets (m + 1) us := by
  simp [numberPackets, Nat.add_assoc, Nat.add_comm 1]

@[simp] theorem numberPackets_length (m : Nat) (us : List Packet) : (numberPackets m us).length = us.length :=
  List.length_mapIdx

theorem numberPackets_map_fst (us : List Packet) : (numberPackets 0 us).map Prod.fst = List.range us.length :=
  List.ext_getElem (by simp) fun k _ _ => by simp [numberPackets]

theorem numberPackets_getD_snd (us : List Packet) (k : Nat) : ((numberPackets 0 us).getD k (0, 0)).2 = us.getD k 0 := by
  rw [← List.getD_map (f := Prod.snd)]
  congr 1
  exact List.ext_getElem (by simp) fun k _ _ => by simp [numberPackets]

/-- The numbered triplets of valid units decode to the units, with the same numbers. -/
theorem decodeElements_numberFrom {us : List Packet} (hvalid : ∀ u ∈ us, u.toNat / 2 ^ 10 ≤ 5) (m : Nat)
    (core : State) : decodeElements (numberFrom m (us.map packetTriplet)) core = .ok (numberPackets m us) := by
  induction us generalizing m core with
  | nil => rfl
  | cons u us ih =>
    rw [List.forall_mem_cons] at hvalid
    obtain ⟨hu, hus⟩ := hvalid
    rw [List.map_cons, numberFrom, decodeElements_cons_of_ok (present_decodeWord_packetTriplet hu core) rfl, ih hus,
      Except.map, State.setRsp_rsp, okResponse_data, extractLsb'_setWidth_packet, numberPackets_cons]

/-- Byte lists of one length with the same bits are equal. -/
theorem bytes_eq_of_bits {bytes bytes' : List (BitVec 8)} (hlength : bytes'.length = bytes.length)
    (hbits : ∀ n < 8 * bytes.length,
      (bytes'.getD (n / 8) 0).getLsbD (7 - n % 8) = (bytes.getD (n / 8) 0).getLsbD (7 - n % 8)) : bytes' = bytes := by
  refine List.ext_getElem hlength fun k hk' hk => BitVec.eq_of_getLsbD_eq fun j hj => ?_
  have hdiv : (8 * k + (7 - j)) / 8 = k := by omega
  have hmod : 7 - (8 * k + (7 - j)) % 8 = j := by omega
  have hbit := hbits (8 * k + (7 - j)) (by omega)
  rwa [hdiv, hmod, List.getD_eq_getElem _ _ hk', List.getD_eq_getElem _ _ hk] at hbit

/-- The units of a buffer, numbered from 0, are reassembled to the buffer: bit `n` is cut into unit `n / 13` and joined
again from there. -/
theorem reassemble_splitBytes (bytes : List (BitVec 8)) :
    reassemble (numberPackets 0 (splitBytes bytes).1) (8 * bytes.length) = .ok bytes := by
  have hlength : (numberPackets 0 (splitBytes bytes).1).length = (8 * bytes.length + 12) / 13 := by
    rw [numberPackets_length, splitBytes_fst_length, unitsNeeded]
  obtain ⟨-, hchecked⟩ :=
    reassembleChecksThenJoinsTheBits (numberPackets 0 (splitBytes bytes).1) (8 * bytes.length)
  obtain ⟨-, hordered⟩ := hchecked hlength.ge
  obtain ⟨-, hjoined⟩ := hordered (by rw [numberPackets_map_fst, numberPackets_length])
  obtain ⟨bytes', hok, hlength', hbits⟩ := hjoined ⟨hlength, Nat.mul_mod_right 8 _⟩
  obtain ⟨-, -, hunits⟩ := splitCutsTheBitString bytes
  refine hok.trans (congrArg Except.ok (bytes_eq_of_bits (by omega) fun n hn => ?_))
  rw [hbits n hn, numberPackets_getD_snd, hunits (n / 13) (n % 13) (by omega) (Nat.mod_lt n (by decide)),
    Nat.div_add_mod, decide_eq_true hn, Bool.true_and]

/-- Settles O49: encode gives the numbered triplets of the units, decode gives the units back with their numbers, and
reassembling them gives the buffer. -/
theorem bufferRoundTrip : Obligations.BufferRoundTrip := by
  unfold Obligations.BufferRoundTrip
  intro bytes core core' hvalid
  refine ⟨⟨8 * bytes.length, numberFrom 0 ((splitBytes bytes).1.map packetTriplet)⟩, ?encode, ?decode⟩
  case encode => rw [encodeBuffer, encodeUnits_of_valid hvalid, splitBytes_snd]
  case decode =>
    rw [decodeStream, decodeElements_numberFrom hvalid]
    exact reassemble_splitBytes bytes

end Sys2Proof.Machine

/-! ## Words and frames that the spec writes out (30_encoding.md, 45_host_framing.md section 4) -/

namespace Sys2Proof.Machine

/-- Settles O4, by running the decoder on the sixteen words. -/
theorem wordsOfTheSpecDecodeAsWritten : Obligations.WordsOfTheSpecDecodeAsWritten := by
  unfold Obligations.WordsOfTheSpecDecodeAsWritten
  decide

/-- Settles O48, by running the reference host on the three frames. -/
theorem helloScenario : Obligations.HelloScenario := by
  unfold Obligations.HelloScenario
  refine ⟨?encode, ?decode, ?corrupted⟩
  case encode => rfl
  case decode => rfl
  case corrupted => rfl

end Sys2Proof.Machine
